-- ==== Sys2Proof/Word.lean ====
section
/-!
DEFINITION. Word.lean: the widths of the engine's registers and words (00_scope.md rules R4 and R6). Every one is an
unsigned bit vector whose bit 0 is the least significant bit.
-/

namespace Sys2Proof

/-- One byte of key material (rule R32). -/
abbrev Byte := BitVec 8

/-- One 24-bit word of a key register (`WORD_BITS`, rules R4 and R10). -/
abbrev KeyWord := BitVec 24

/-- The ring view of a key register, five words, the first word the most significant (`KEY_BITS`, rules R4 and R11). -/
abbrev KeyRing := BitVec 120

/-- The feedback register U (`U_BITS`, rules R4 and R14). -/
abbrev UReg := BitVec 36

/-- A bit position of U, 0 to 35 (rule R23). -/
abbrev UPos := Fin 36

/-- A keystream value (`K_BITS`, rules R4 and R16). -/
abbrev KVal := BitVec 13

/-- A plaintext or ciphertext unit, and the width of SRV2 and SRV3 (`CHAR_BITS`, `LFSR_BITS`, rules R4 and R17). -/
abbrev CharUnit := BitVec 5

/-- A command word (rule R40). -/
abbrev CommandWord := BitVec 128

/-- A response word (rule R46). -/
abbrev ResponseWord := BitVec 16

end Sys2Proof
end

