-- ==== Sys2Proof/Config.lean ====
section
/-!
DEFINITION. Config.lean: what is fixed for one engine before power-on (00_scope.md rule R5, 10_state.md rules R15, R22,
R23, R24): the key-bit selector, the long-term-key catalogue and the index into it, the function Z and the reset constant
of U. The spec gives none of these values, so the values of the machine's own configuration, and the F stream, are free:
constants with no body, of which no proof can see anything.
-/

namespace Sys2Proof

/-- `KEYBIT_SEL` (rule R22): which end of a key register `KEYBIT` reads (rule R52). -/
inductive KeyBitSel where
  | high
  | low
deriving DecidableEq, Repr, Inhabited

/-- One long-term-key profile (rule R23): `P[1..27]`, `D[1..9]` and `ALPHA`. The element of index `i - 1` is the spec's entry
`i`. An entry of D that selects no register bit (`NONE`) is `none`. The type admits no entry outside the ranges of rule R23. -/
structure Profile where
  p : Vector UPos 27
  d : Vector (Option UPos) 9
  alpha : UPos
deriving DecidableEq, Repr, Inhabited

/-- The configuration of one engine (rule R5). The catalogue is `LTK_ROM`, 11 profiles (rule R31), and `ltkId` the
`LTK_ID` that selects one (0 to 10; 11 to 15 are not allowed). Z is given as its truth table: entry `i` at bit `i`, where
`e1` is the most significant bit of `i` (rule R62). -/
structure Config where
  keybitSel : KeyBitSel
  ltkId : Fin 11
  ltkRom : Vector Profile 11
  z : BitVec 64
  uInit : UReg
deriving DecidableEq, Repr, Inhabited

/-- FREE VALUE (assumption 1). The configuration of the machine that `State.reset` describes: the spec leaves each of its
fields a parameter (rule R5), so nothing in Lean can prove a value of it. -/
opaque Config.installed : Config

/-- FREE VALUE (assumption 2). The external F stream (rule R24): the `n`-th bit since power-on, a total function that no rule
constrains. -/
opaque Config.fStream : Nat → Bool

end Sys2Proof
end

