-- ==== Sys2Proof/Machine/Params.lean ====
section
/-!
DEFINITION. Machine/Params.lean: the counts the source fixes (00_scope.md rule R4), each named so that a later correction
touches one place. The widths of rule R4 are types and stand in Word.lean and Config.lean.
-/

namespace Sys2Proof.Machine

/-- `WARMUP_ROUNDS` (rule R4): inner rounds of the warm-up. -/
abbrev warmupRounds : Nat := 133

/-- `ROUNDS_PER_CHAR` (rule R4): inner rounds of one main derivation. The spec is normative for 1778 (90_conflicts.md C5). -/
abbrev roundsPerChar : Nat := 1778

/-- `BLOCK_LEN` (rule R4): inner rounds per output bit. -/
abbrev blockLen : Nat := 127

/-- `KEY_BITS` (rule R4). -/
abbrev keyBits : Nat := 120

/-- `K_BITS` (rule R4): a block contributes a bit of K only when its index is below this (rule R71). -/
abbrev kBits : Nat := 13

end Sys2Proof.Machine
end

