-- ==== Sys2Proof/Machine/State.lean ====
section
/-!
DEFINITION. Machine/State.lean: the state of one engine (10_state.md), its reset (rule R27) and the reasons a step can stop.
The engine has no memory and no program counter (rules R26 and R30). K, SRV2, SRV3 and the sequencer counters have no
architectural value between commands and need no cell (rules R16, R17, R21 and R27).
-/

namespace Sys2Proof.Machine

/-- MODE (rule R19): the five states of the controller. Values 5 to 7 are never taken. -/
inductive Mode where
  | idle
  | keysValidated
  | running
  | finished
  | aborted
deriving DecidableEq, Repr

/-- ERR (rules R20 and R96): the cause of the last abort. Values 5 to 7 are never taken. -/
inductive Err where
  | none
  | keyMissing
  /-- reserved for the host: the engine never writes it (rule R97) -/
  | keyLength
  | keyParity
  | sync
deriving DecidableEq, Repr

/-- The reasons a step can fault: none. The engine has no trap, and every command word is answered (rules R99 to R101); a
stalled F source is outside the model (rule R122; assumptions 6 and 14). -/
inductive Fault where
deriving DecidableEq, Repr

/-- The reasons a step can be left without a meaning. -/
inductive Refusal where
  /-- Raised by no arm of `exec`: every command has its meaning. It would be safe: the machine stops where the engine goes
  on. -/
  | notModelled (mnemonic : String)
deriving DecidableEq, Repr

/-- The state of one engine. -/
structure State where
  /-- S1 in the ring view (rules R10 and R11) -/
  s1 : KeyRing
  /-- S2 in the ring view -/
  s2 : KeyRing
  /-- S1_ORIG, the snapshot of S1 (rule R12) -/
  s1Orig : KeyRing
  /-- S2_ORIG -/
  s2Orig : KeyRing
  /-- LD1: S1 has been loaded since power-on (rule R13) -/
  ld1 : Bool
  /-- LD2 -/
  ld2 : Bool
  /-- U, the feedback register (rule R14) -/
  u : UReg
  /-- WARM: the warm-up has been run since the last machine reset (rule R18) -/
  warm : Bool
  /-- MODE (rule R19) -/
  mode : Mode
  /-- ERR (rule R20) -/
  err : Err
  /-- the configuration inputs and parameters (rules R5, R15, R22, R23); no command writes them -/
  cfg : Config
  /-- FPOS: F-bits consumed since power-on (rule R24; bookkeeping, not a register of the engine) -/
  fpos : Nat
  /-- The model's own field (assumption 2): the bits of the F stream that are known, from the first; the stream beyond them is
  the free value `Config.fStream`. No command writes it. -/
  fKnown : List Bool
  /-- the command port (92_eei_decisions.md D1): the words the host has presented and the engine has not taken, oldest first
  (assumption 3) -/
  port : List CommandWord
  /-- the response port (rule R46): the responses given so far, oldest first (assumption 4) -/
  responses : List ResponseWord
deriving DecidableEq, Repr

/-- The state after power-on reset (rules R27 and R110) of an engine with the configuration `c` and the known F-bits `known`:
the key registers, their snapshots and the flags 0, U at `U_INIT`, MODE `IDLE`, ERR `ERR_NONE`, no F-bit consumed, no command
taken. -/
def State.powerOn (c : Config) (known : List Bool) : State where
  s1 := 0#120
  s2 := 0#120
  s1Orig := 0#120
  s2Orig := 0#120
  ld1 := false
  ld2 := false
  u := c.uInit
  warm := false
  mode := .idle
  err := .none
  cfg := c
  fpos := 0
  fKnown := known
  port := []
  responses := []

/-- The machine right after reset: the power-on state under the machine's own configuration, of which nothing is known, and an
F stream of which nothing is known (assumptions 1 and 2). -/
def State.reset : State := State.powerOn Config.installed []

end Sys2Proof.Machine
end

