-- ==== Sys2Proof/Machine/Operands.lean ====
section
/-!
DEFINITION. Machine/Operands.lean: the operand of a load (20_memory.md rules R32 and R33, 30_encoding.md rule R42), the word view
of a key register (10_state.md rules R10 and R11), the fields of a keystream value (43_cipher.md rule R79) and the response word
(30_encoding.md rule R46).
-/

namespace Sys2Proof.Machine

/-- `W(S,j)`, word `j` (0 to 4) of a key register whose ring value is `r`: `W(S,j)[i] = Ring(S)[24*(4-j) + i]` (rule R11). -/
def keyWord (r : KeyRing) (j : Nat) : KeyWord := r.extractLsb' (24 * (4 - j)) 24

/-- The ring value of a key operand: the five words of the operand, the first the most significant (rules R33 and R53). -/
def ringOfKeyop (keyop : KeyRing) : KeyRing :=
  keyop.extractLsb' 0 24 ++ keyop.extractLsb' 24 24 ++ keyop.extractLsb' 48 24 ++ keyop.extractLsb' 72 24
    ++ keyop.extractLsb' 96 24

/-- `KLO(k) = k[4:0]` (rule R79). -/
def kLo (k : KVal) : CharUnit := k.extractLsb' 0 5

/-- `KHI(k) = k[10:6]` (rule R79). -/
def kHi (k : KVal) : CharUnit := k.extractLsb' 6 5

/-- The status of a response (rule R95). Code 3 is never given. -/
inductive RespStatus where
  | ok
  | illegal
  | badMode
deriving DecidableEq, Repr

/-- The code of a status, `RESP[15:14]` (rule R95). -/
def RespStatus.code : RespStatus → BitVec 2
  | .ok => 0#2
  | .illegal => 1#2
  | .badMode => 2#2

/-- The response word (rule R46): `RESP[15:14] = ST`, `RESP[13] = 0`, `RESP[12:0] = DOUT`. -/
def respWord (st : RespStatus) (dout : KVal) : ResponseWord := st.code ++ 0#1 ++ dout

/-- `zext_13` of one bit, the boolean data of rule R46. -/
def boolData (b : Bool) : KVal := (BitVec.ofBool b).setWidth 13

/-- `zext_13` of a unit, the data of ENC and DEC (rule R46). -/
def unitData (c : CharUnit) : KVal := c.setWidth 13

end Sys2Proof.Machine
end

