-- ==== Sys2Proof/Machine/Flags.lean ====
section
/-!
DEFINITION. Machine/Flags.lean: the parity of a key register (41_keystore.md rule R50), the numeric codes of MODE, ERR and
KEYBIT_SEL (10_state.md rules R19, R20, R22) and the status port (rule R25).
-/

namespace Sys2Proof.Machine

/-- XOR of the first `n` bits of a stream. -/
def xorBits (bit : Nat → Bool) : Nat → Bool
  | 0 => false
  | n + 1 => xorBits bit n ^^ bit n

/-- `PAR(r)`: the XOR of all 120 bits (rule R50). A register is valid when it is 1. -/
def par (r : KeyRing) : Bool := xorBits r.getLsbD keyBits

/-- The code of MODE (rule R19). -/
def Mode.code : Mode → BitVec 3
  | .idle => 0#3
  | .keysValidated => 1#3
  | .running => 2#3
  | .finished => 3#3
  | .aborted => 4#3

/-- The code of ERR (rules R20 and R96). -/
def Err.code : Err → BitVec 3
  | .none => 0#3
  | .keyMissing => 1#3
  | .keyLength => 2#3
  | .keyParity => 3#3
  | .sync => 4#3

/-- The status port (rule R25), shown continuously and without side effect:
`STATUS[8:6] = MODE, STATUS[5:3] = ERR, STATUS[2] = WARM, STATUS[1] = LD2, STATUS[0] = LD1`. -/
def State.status (s : State) : BitVec 9 :=
  s.mode.code ++ s.err.code ++ BitVec.ofBool s.warm ++ BitVec.ofBool s.ld2 ++ BitVec.ofBool s.ld1

end Sys2Proof.Machine
end

