-- ==== Sys2Proof/Machine/Ops.lean ====
section
/-!
DEFINITION. Machine/Ops.lean: the operations the commands share. The key-store functions `RINGSHIFT` and `KEYBIT`
(41_keystore.md rules R51 and R52), the F-bit (10_state.md rule R24), the responses and refusals (30_encoding.md rule R46,
60_exceptions.md rules R99 and R100), the mode check (44_controller.md rule R87), `RESTORE` (rule R88), the abort entry
(60_exceptions.md rule R103) and the way out of it (rule R104).
-/

namespace Sys2Proof.Machine

/-! ### Key registers -/

/-- `RINGSHIFT(r) = (r[0] << 119) | (r >> 1)` (rule R51). -/
def ringShift (r : KeyRing) : KeyRing := (BitVec.ofBool (r.getLsbD 0)).setWidth 120 <<< 119 ||| r >>> 1

/-- `KEYBIT(r)` (rule R52): `HIGH` reads the bottommost bit of the ring, `LOW` the topmost. -/
def keyBit (sel : KeyBitSel) (r : KeyRing) : Bool :=
  match sel with
  | .high => r.getLsbD 0
  | .low => r.getLsbD 119

/-! ### The F stream -/

/-- `F(n)` (rule R24): the known bits, then the free stream. -/
def State.fBit (s : State) (n : Nat) : Bool := s.fKnown.getD n (Config.fStream n)

/-! ### Responses -/

/-- `respond(st, dout)` (rule R7): the one response of a command (rule R46). -/
def respond (st : RespStatus) (dout : KVal) (s : State) : State :=
  { s with responses := s.responses ++ [respWord st dout] }

/-- `refuse(st)` (rule R7): `respond(st, 0)` with no state written (rules R99 and R100). -/
def refuse (st : RespStatus) (s : State) : State := respond st 0#13 s

/-! ### The mode check -/

/-- The modes in which a character may be derived, and a run stopped (rule R87). -/
def Mode.inRun : Mode → Bool
  | .idle => false
  | .keysValidated => true
  | .running => true
  | .finished => false
  | .aborted => false

/-- The modes in which a run may still be aborted (rule R87). -/
def Mode.beforeRun : Mode → Bool
  | .idle => true
  | .keysValidated => true
  | .running => false
  | .finished => false
  | .aborted => false

/-- A command accepted only when `legal` holds has the effect `body`; in another mode it is refused with `ST_BADMODE` (rules
R87, R100, R102). -/
def accept (legal : Bool) (body s : State) : Host.Outcome State Fault Refusal :=
  if legal then .next body else .next (refuse .badMode s)

/-! ### Restore and abort -/

/-- `RESTORE` (rule R88): the key registers back to their snapshots, U to `U_INIT`, WARM cleared. It touches nothing else. -/
def restore (s : State) : State :=
  { s with s1 := s.s1Orig, s2 := s.s2Orig, u := s.cfg.uInit, warm := false }

/-- The abort entry (rule R103), shared by START and ABT: MODE becomes `ABORTED` and ERR the code, and nothing else changes. -/
def abortEntry (code : Err) (s : State) : State := { s with mode := .aborted, err := code }

/-- The way out of `ABORTED` and `FINISHED` (rules R89 and R104): restore, MODE `IDLE`, ERR cleared. -/
def machineReset (s : State) : State := { restore s with mode := .idle, err := .none }

end Sys2Proof.Machine
end

