-- ==== Sys2Proof/Machine/Generator.lean ====
section
/-!
DEFINITION. Machine/Generator.lean: the keystream generator (42_generator.md): Z, the selection functions, the round, the
warm-up, the block, the derivation and the command DRV.
-/

namespace Sys2Proof.Machine

/-! ### The parts of a round -/

/-- The profile in use, `LTK = LTK_ROM[LTK_ID]` (rules R23 and R31). -/
def ltkOf (c : Config) : Profile := c.ltkRom[c.ltkId]

/-- `Z(e1, ..., e6)` (rule R62): the entry of the truth table at the number with the bits `e1 ... e6`, `e1` most significant. -/
def zFun (c : Config) (e1 e2 e3 e4 e5 e6 : Bool) : Bool :=
  c.z.getLsbD (32 * e1.toNat + 16 * e2.toNat + 8 * e3.toNat + 4 * e4.toNat + 2 * e5.toNat + e6.toNat)

/-- `USEL(U, i) = U[i]` (rule R63). -/
def uSel (u : UReg) (i : UPos) : Bool := u.getLsbD i.val

/-- `DSEL(U, d)`: the bit of U at a position, 0 for `NONE` (rule R63). -/
def dSel (u : UReg) : Option UPos → Bool
  | some i => uSel u i
  | none => false

/-- `p(i) = USEL(U, P[i])`, `i` from 1 to 27 (rule R64). -/
def pBit (l : Profile) (u : UReg) (i : Nat) : Bool := uSel u (l.p.getD (i - 1) 0)

/-- `DSEL(U, D[i])`, `i` from 1 to 9 (rule R65). -/
def dBit (l : Profile) (u : UReg) (i : Nat) : Bool := dSel u (l.d.getD (i - 1) none)

/-- The pipeline T (rule R64), of which `T[0]` is never read (assumption 18). -/
def pipeline (c : Config) (u : UReg) (s2 f : Bool) : Vector Bool 10 :=
  let p := pBit (ltkOf c) u
  let t1 := f
  let t2 := t1 ^^ zFun c s2 (p 1) (p 2) (p 3) (p 4) (p 5)
  let t3 := t2 ^^ p 6
  let t4 := t3 ^^ zFun c (p 7) (p 8) (p 9) (p 10) (p 11) (p 12)
  let t5 := t4 ^^ p 13
  let t6 := t5 ^^ zFun c (p 14) (p 15) (p 16) (p 17) (p 18) (p 19) ^^ s2
  let t7 := t6 ^^ p 20
  let t8 := t7 ^^ zFun c (p 21) (p 22) (p 23) (p 24) (p 25) (p 26)
  let t9 := t8 ^^ p 27
  #v[false, t1, t2, t3, t4, t5, t6, t7, t8, t9]

/-- Group `g` of the shifted register (rule R65): `N[4g+3] = DSEL(U, D[9-g]) ^ T[g+1]` above `N[4g+2:4g] = U[4g+3:4g+1]`. -/
def groupShift (l : Profile) (u : UReg) (t : Vector Bool 10) (g : Nat) : BitVec 4 :=
  BitVec.ofBool (dBit l u (9 - g) ^^ t.getD (g + 1) false) ++ u.extractLsb' (4 * g + 1) 3

/-- The register shift (rule R65): the nine groups, 8 the most significant. -/
def registerShift (l : Profile) (u : UReg) (t : Vector Bool 10) : UReg :=
  let g := groupShift l u t
  g 8 ++ g 7 ++ g 6 ++ g 5 ++ g 4 ++ g 3 ++ g 2 ++ g 1 ++ g 0

/-- Key injection (rule R66): `N[35] = N[35] ^ s1`, every other bit unchanged. -/
def injectKey (n : UReg) (s1 : Bool) : UReg := n ^^^ (BitVec.ofBool s1).setWidth 36 <<< 35

/-- The new value of U in a round (rule R69): every read is of the old value. -/
def nextU (c : Config) (u : UReg) (s1 s2 f : Bool) : UReg :=
  injectKey (registerShift (ltkOf c) u (pipeline c u s2 f)) s1

/-! ### The inner round, the warm-up, the block, the derivation -/

/-- `ROUND` (rule R69): one F-bit is consumed, U takes its new value and both key registers are shifted. -/
def round (s : State) : State :=
  { s with
    u := nextU s.cfg s.u (keyBit s.cfg.keybitSel s.s1) (keyBit s.cfg.keybitSel s.s2) (s.fBit s.fpos)
    s1 := ringShift s.s1
    s2 := ringShift s.s2
    fpos := s.fpos + 1 }

/-- `n` inner rounds in a row. -/
def rounds : Nat → State → State
  | 0, s => s
  | n + 1, s => rounds n (round s)

/-- `WARMUP` (rule R70): 133 rounds the first time after a machine reset, nothing later. -/
def warmup (s : State) : State :=
  if s.warm then s else { rounds warmupRounds s with warm := true }

/-- The tap bit `a = USEL(U, ALPHA)` (rule R71). -/
def tap (s : State) : Bool := uSel s.u (ltkOf s.cfg).alpha

/-- `BLOCK(b)` (rule R71): 127 rounds, then the tap bit is ORed into bit `b` of K; the bit of block 13 is dropped. -/
def block (b : Nat) (ks : KVal × State) : KVal × State :=
  let t := rounds blockLen ks.2
  (if b < kBits then ks.1 ||| (BitVec.ofBool (tap t)).setWidth 13 <<< b else ks.1, t)

/-- Blocks 0 to `n - 1`, in order, from K = 0 (rule R72). -/
def blocks : Nat → State → KVal × State
  | 0, s => (0#13, s)
  | n + 1, s => block n (blocks n s)

/-- The main derivation of `total` inner rounds, a multiple of 127: the warm-up, then the blocks (rule R72). The spec's own count
is 1778; the alternative that 93_implementation_defined.md I13 keeps reachable is `deriveFor 1651`. -/
def deriveFor (total : Nat) (s : State) : KVal × State := blocks (total / blockLen) (warmup s)

/-- `DERIVE` (rule R72, 90_conflicts.md C5): 1778 rounds, 14 blocks. Irreducible, so that no proof runs the rounds by accident. -/
@[irreducible] def derive (s : State) : KVal × State := deriveFor roundsPerChar s

/-! ### The command -/

/-- The transition on the first character (rule R91): `KEYS_VALIDATED` becomes `RUNNING`; `RUNNING` stays. -/
def firstCharacter (s : State) : State :=
  match s.mode with
  | .keysValidated => { s with mode := .running }
  | .idle => s
  | .running => s
  | .finished => s
  | .aborted => s

/-- The end of a character command: the transition of rule R91, then the response with the data. -/
def finishCharacter (dout : KVal) (s : State) : State := respond .ok dout (firstCharacter s)

/-- DRV (rule R73): derive one keystream value and return it. -/
def execDrv (s : State) : Host.Outcome State Fault Refusal :=
  accept s.mode.inRun (finishCharacter (derive s).1 (derive s).2) s

end Sys2Proof.Machine
end

