-- ==== Sys2Proof/Machine/Cipher.lean ====
section
/-!
DEFINITION. Machine/Cipher.lean: the character cipher (43_cipher.md): `NEXT`, `LOOP`, `ENC5`, `DEC5` and the commands ENC and DEC.
-/

namespace Sys2Proof.Machine

/-- `NEXT(x) = ((x << 1) | (((x >> 4) ^ (x >> 2)) & 1)) & 0b11111` (rule R75). -/
def lfsrNext (x : CharUnit) : CharUnit := x <<< 1 ||| ((x >>> 4 ^^^ x >>> 2) &&& 1#5)

/-- The stop test of `LOOP` (rule R77). -/
def loopStops (a : CharUnit) : Bool := a == 0b11111#5 || a == 0#5

/-- At most `n` turns of the loop of rule R77: the stop test stands before every shift. -/
def lfsrLoopFor : Nat → CharUnit → CharUnit → CharUnit × CharUnit
  | 0, a, b => (a, b)
  | n + 1, a, b => if loopStops a then (a, b) else lfsrLoopFor n (lfsrNext a) (lfsrNext b)

/-- `LOOP(a, b)` (rule R77). The while-loop makes at most 30 shifts (rule R78), so 31 turns run it to its end
(assumption 11). -/
def lfsrLoop (a b : CharUnit) : CharUnit × CharUnit := lfsrLoopFor 31 a b

/-- `ENC5(k, p)` (rule R80): two loops; between them SRV2 takes the SRV3 the first loop left, then SRV3 becomes
`KHI(k) ^ p`. -/
def enc5 (k : KVal) (p : CharUnit) : CharUnit :=
  let first := lfsrLoop (kLo k) 0b11111#5
  let second := lfsrLoop first.2 (kHi k ^^^ p)
  second.2

/-- `DEC5(k, c)` (rule R81): one loop, then the XOR with `KHI(k)`. -/
def dec5 (k : KVal) (c : CharUnit) : CharUnit := (lfsrLoop (kLo k) c).2 ^^^ kHi k

/-- ENC (rule R82): encrypt one unit under a fresh keystream value. -/
def execEnc (ch : CharUnit) (s : State) : Host.Outcome State Fault Refusal :=
  accept s.mode.inRun (finishCharacter (unitData (enc5 (derive s).1 ch)) (derive s).2) s

/-- DEC (rule R83): decrypt one unit under a fresh keystream value. -/
def execDec (ch : CharUnit) (s : State) : Host.Outcome State Fault Refusal :=
  accept s.mode.inRun (finishCharacter (unitData (dec5 (derive s).1 ch)) (derive s).2) s

end Sys2Proof.Machine
end

