-- ==== Sys2Proof/Machine/Controller.lean ====
section
/-!
DEFINITION. Machine/Controller.lean: the four commands of the machine controller (44_controller.md).
-/

namespace Sys2Proof.Machine

/-- RST (rule R89): machine reset, accepted in every mode. -/
def execRst (s : State) : Host.Outcome State Fault Refusal :=
  .next (respond .ok 0#13 (machineReset s))

/-- The validation inside START (rule R90), on the restored state: a missing key is tested before parity (rule R102). -/
def validateKeys (s : State) : State :=
  if !s.ld1 || !s.ld2 then respond .ok (boolData false) (abortEntry .keyMissing s)
  else if !par s.s1 || !par s.s2 then respond .ok (boolData false) (abortEntry .keyParity s)
  else respond .ok (boolData true) { s with mode := .keysValidated }

/-- START (rule R90): restore, then validate. -/
def execStart (s : State) : Host.Outcome State Fault Refusal :=
  accept (s.mode == .idle) (validateKeys (restore s)) s

/-- STOP (rule R92): end the run normally. Nothing but MODE is written. -/
def execStop (s : State) : Host.Outcome State Fault Refusal :=
  accept s.mode.inRun (respond .ok 0#13 { s with mode := .finished }) s

/-- ABT (rule R93): abort before the run on a synchronization error. -/
def execAbt (s : State) : Host.Outcome State Fault Refusal :=
  accept s.mode.beforeRun (respond .ok 0#13 (abortEntry .sync s)) s

end Sys2Proof.Machine
end

