-- ==== Sys2Proof/Machine/KeyStore.lean ====
section
/-!
DEFINITION. Machine/KeyStore.lean: the eight commands of the key register store (41_keystore.md).
-/

namespace Sys2Proof.Machine

/-- LDK1 (rule R53): register and snapshot take the ring value of the operand, LD1 is set, the response carries the parity. -/
def execLdk1 (keyop : KeyRing) (s : State) : Host.Outcome State Fault Refusal :=
  let r := ringOfKeyop keyop
  accept (s.mode == .idle) (respond .ok (boolData (par r)) { s with s1 := r, s1Orig := r, ld1 := true }) s

/-- LDK2 (rule R54): as LDK1, for S2. -/
def execLdk2 (keyop : KeyRing) (s : State) : Host.Outcome State Fault Refusal :=
  let r := ringOfKeyop keyop
  accept (s.mode == .idle) (respond .ok (boolData (par r)) { s with s2 := r, s2Orig := r, ld2 := true }) s

/-- CHK (rule R55): true iff both registers have odd parity. Accepted in every mode; nothing is written. -/
def execChk (s : State) : Host.Outcome State Fault Refusal :=
  .next (respond .ok (boolData (par s.s1 && par s.s2)) s)

/-- SHK1 (rule R56): rotate S1 by one bit. -/
def execShk1 (s : State) : Host.Outcome State Fault Refusal :=
  accept (s.mode == .idle) (respond .ok 0#13 { s with s1 := ringShift s.s1 }) s

/-- SHK2 (rule R57): rotate S2 by one bit. -/
def execShk2 (s : State) : Host.Outcome State Fault Refusal :=
  accept (s.mode == .idle) (respond .ok 0#13 { s with s2 := ringShift s.s2 }) s

/-- KB1 (rule R58): read the key bit of S1. Accepted in every mode; nothing is written. -/
def execKb1 (s : State) : Host.Outcome State Fault Refusal :=
  .next (respond .ok (boolData (keyBit s.cfg.keybitSel s.s1)) s)

/-- KB2 (rule R59): read the key bit of S2. Accepted in every mode; nothing is written. -/
def execKb2 (s : State) : Host.Outcome State Fault Refusal :=
  .next (respond .ok (boolData (keyBit s.cfg.keybitSel s.s2)) s)

/-- RSK (rule R60): restore both registers from their snapshots. -/
def execRsk (s : State) : Host.Outcome State Fault Refusal :=
  accept (s.mode == .idle) (respond .ok 0#13 { s with s1 := s.s1Orig, s2 := s.s2Orig }) s

end Sys2Proof.Machine
end

