-- ==== Sys2Proof/Syntax.lean ====
section
/-!
DEFINITION. Syntax.lean: the fifteen commands (30_encoding.md rule R43), one constructor per row of opcode_table.json, and
the lines of the assembler (rules R47 and R48).
-/

namespace Sys2Proof

/-- A command with its operand. LDK1 and LDK2 carry the 120-bit key operand `KEYOP`; ENC and DEC the 5-bit unit `CH` (rule
R41); the others carry nothing. The operand types admit exactly the operands an encoding admits. -/
inductive Instr where
  | rst
  | start
  | stop
  | abt
  | chk
  | ldk1 (keyop : KeyRing)
  | ldk2 (keyop : KeyRing)
  | shk1
  | shk2
  | kb1
  | kb2
  | rsk
  | drv
  | enc (ch : CharUnit)
  | dec (ch : CharUnit)
deriving DecidableEq, Repr

/-- The fifteen mnemonics of rule R43. -/
inductive Mnemonic where
  | rst | start | stop | abt | chk | ldk1 | ldk2 | shk1 | shk2 | kb1 | kb2 | rsk | drv | enc | dec
deriving DecidableEq, Repr

/-- The three formats of rule R41: no operand, key, character. -/
inductive Format where
  | n
  | k
  | c
deriving DecidableEq, Repr

/-- A line of the assembler, before it is checked: a command (rule R47) or a pseudo-command (rule R48). Operands are held as
they are written, so a line may be ill-formed: a key buffer of another length, a unit above 31, an operand that the format
does not take. -/
inductive Line where
  /-- a mnemonic alone (format N) -/
  | plain (m : Mnemonic)
  /-- a mnemonic and a key buffer (format K) -/
  | key (m : Mnemonic) (bytes : List Byte)
  /-- a mnemonic and a unit (format C) -/
  | unit (m : Mnemonic) (u : Nat)
  /-- `LDK n, <15 bytes>` -/
  | ldk (n : Nat) (bytes : List Byte)
  /-- `SHK n` -/
  | shk (n : Nat)
  /-- `KB n` -/
  | kb (n : Nat)
  /-- `KEYS <15 bytes> / <15 bytes>` -/
  | keys (bytes1 bytes2 : List Byte)
  /-- `ENCS u0 u1 ... un` -/
  | encs (us : List Nat)
  /-- `DECS u0 u1 ... un` -/
  | decs (us : List Nat)
  /-- `RUN` -/
  | run
deriving DecidableEq, Repr

end Sys2Proof
end

