-- ==== Sys2Proof/Machine/Dispatch.lean ====
section
/-!
DEFINITION. Machine/Dispatch.lean: one arm per command (30_encoding.md rule R43).
-/

namespace Sys2Proof.Machine

def exec (i : Instr) (s : State) : Host.Outcome State Fault Refusal :=
  match i with
  | .rst => Sys2Proof.Machine.execRst s
  | .start => Sys2Proof.Machine.execStart s
  | .stop => Sys2Proof.Machine.execStop s
  | .abt => Sys2Proof.Machine.execAbt s
  | .chk => Sys2Proof.Machine.execChk s
  | .ldk1 keyop => Sys2Proof.Machine.execLdk1 keyop s
  | .ldk2 keyop => Sys2Proof.Machine.execLdk2 keyop s
  | .shk1 => Sys2Proof.Machine.execShk1 s
  | .shk2 => Sys2Proof.Machine.execShk2 s
  | .kb1 => Sys2Proof.Machine.execKb1 s
  | .kb2 => Sys2Proof.Machine.execKb2 s
  | .rsk => Sys2Proof.Machine.execRsk s
  | .drv => Sys2Proof.Machine.execDrv s
  | .enc ch => Sys2Proof.Machine.execEnc ch s
  | .dec ch => Sys2Proof.Machine.execDec ch s

end Sys2Proof.Machine
end

