-- ==== Sys2Proof/Decode.lean ====
section
/-!
DEFINITION. Decode.lean: the command word (30_encoding.md rules R40 to R45). The opcode map of rule R43, the decoder, total on
128-bit words, and the encoder, both from that one map.
-/

namespace Sys2Proof

/-- The opcode of each command (rule R43). -/
def Mnemonic.opcode : Mnemonic → BitVec 8
  | .rst => 0x01#8
  | .start => 0x02#8
  | .stop => 0x03#8
  | .abt => 0x04#8
  | .chk => 0x08#8
  | .ldk1 => 0x10#8
  | .ldk2 => 0x11#8
  | .shk1 => 0x12#8
  | .shk2 => 0x13#8
  | .kb1 => 0x14#8
  | .kb2 => 0x15#8
  | .rsk => 0x16#8
  | .drv => 0x20#8
  | .enc => 0x21#8
  | .dec => 0x22#8

/-- The format of each command (rule R41). -/
def Mnemonic.format : Mnemonic → Format
  | .rst => .n
  | .start => .n
  | .stop => .n
  | .abt => .n
  | .chk => .n
  | .ldk1 => .k
  | .ldk2 => .k
  | .shk1 => .n
  | .shk2 => .n
  | .kb1 => .n
  | .kb2 => .n
  | .rsk => .n
  | .drv => .n
  | .enc => .c
  | .dec => .c

/-- The fifteen rows of the opcode map, in its order (rule R43). -/
def Mnemonic.all : List Mnemonic :=
  [.rst, .start, .stop, .abt, .chk, .ldk1, .ldk2, .shk1, .shk2, .kb1, .kb2, .rsk, .drv, .enc, .dec]

/-- The row of an opcode, if it is assigned (rules R43 and R44). -/
def Mnemonic.ofOpcode (opc : BitVec 8) : Option Mnemonic :=
  Mnemonic.all.find? fun m => m.opcode == opc

/-- Whether the reserved bits of an operand field are 0 (rule R41): all of `OPD` in format N, none in format K, `CW[119:5]` in
format C. -/
def Format.reservedZero (f : Format) (opd : BitVec 120) : Bool :=
  match f with
  | .n => opd == 0#120
  | .k => true
  | .c => opd.extractLsb' 5 115 == 0#115

/-- The mask of a format (rule R43): the bits of the command word that a row of the format fixes. -/
def Format.mask : Format → CommandWord
  | .n => BitVec.allOnes 128
  | .k => 0xFF#128 <<< 120
  | .c => BitVec.allOnes 128 <<< 5

/-- The mask of a row (rule R43). -/
def Mnemonic.mask (m : Mnemonic) : CommandWord := m.format.mask

/-- The match of a row (rule R43): `OPC << 120`. -/
def Mnemonic.matchWord (m : Mnemonic) : CommandWord :=
  m.opcode ++ 0#120

/-- Why a word is no command (rule R44). -/
inductive DecodeError where
  /-- the opcode is not assigned -/
  | unassignedOpcode (opc : BitVec 8)
  /-- a reserved operand bit of format N or C is set -/
  | reservedBits (m : Mnemonic)
deriving DecidableEq, Repr

/-- `OPC = CW[127:120]` (rule R40). -/
def opcField (w : CommandWord) : BitVec 8 := w.extractLsb' 120 8

/-- `OPD = CW[119:0]` (rule R40). -/
def opdField (w : CommandWord) : BitVec 120 := w.extractLsb' 0 120

/-- The command of a row with the operand field `opd`: `KEYOP` is all of it, `CH` its bits 4 to 0 (rules R41 and R42). -/
def Mnemonic.build (m : Mnemonic) (opd : BitVec 120) : Instr :=
  match m with
  | .rst => .rst
  | .start => .start
  | .stop => .stop
  | .abt => .abt
  | .chk => .chk
  | .ldk1 => .ldk1 opd
  | .ldk2 => .ldk2 opd
  | .shk1 => .shk1
  | .shk2 => .shk2
  | .kb1 => .kb1
  | .kb2 => .kb2
  | .rsk => .rsk
  | .drv => .drv
  | .enc => .enc (opd.extractLsb' 0 5)
  | .dec => .dec (opd.extractLsb' 0 5)

/-- The decoder (rule R45): total, and it reads nothing but the word. The opcode is looked at before the reserved bits (rule
R102). -/
def decode (w : CommandWord) : Except DecodeError Instr :=
  match Mnemonic.ofOpcode (opcField w) with
  | none => .error (.unassignedOpcode (opcField w))
  | some m =>
    if m.format.reservedZero (opdField w) then .ok (m.build (opdField w)) else .error (.reservedBits m)

/-- The row of a command (rule R43). -/
def Instr.mnemonic : Instr → Mnemonic
  | .rst => .rst
  | .start => .start
  | .stop => .stop
  | .abt => .abt
  | .chk => .chk
  | .ldk1 _ => .ldk1
  | .ldk2 _ => .ldk2
  | .shk1 => .shk1
  | .shk2 => .shk2
  | .kb1 => .kb1
  | .kb2 => .kb2
  | .rsk => .rsk
  | .drv => .drv
  | .enc _ => .enc
  | .dec _ => .dec

/-- The operand field of a command (rule R41). -/
def Instr.operand : Instr → BitVec 120
  | .ldk1 keyop => keyop
  | .ldk2 keyop => keyop
  | .enc ch => ch.setWidth 120
  | .dec ch => ch.setWidth 120
  | .rst => 0#120
  | .start => 0#120
  | .stop => 0#120
  | .abt => 0#120
  | .chk => 0#120
  | .shk1 => 0#120
  | .shk2 => 0#120
  | .kb1 => 0#120
  | .kb2 => 0#120
  | .rsk => 0#120
  | .drv => 0#120

/-- The encoder (rules R40 to R43): the opcode above the operand field. -/
def encode (i : Instr) : CommandWord := i.mnemonic.opcode ++ i.operand

/-- What the decoder reads from a table row's word: the low `nbits` bits of `w`, every bit above them 0. A command is one
128-bit word (rule R40), so bit 0 of the table's numbering is bit 0 of the command word (assumption 13). -/
def decodeTableWord (nbits w : Nat) : Option Instr :=
  if w % 2 ^ nbits < 2 ^ 128 then (decode (BitVec.ofNat 128 (w % 2 ^ nbits))).toOption else none

end Sys2Proof
end

