-- ==== Sys2Proof/Machine/Port.lean ====
section
/-!
DEFINITION. Machine/Port.lean: the command port (30_encoding.md rules R40 and R45, 20_memory.md rule R36): what the host does to
present a word, and what the engine does to take one.
-/

namespace Sys2Proof.Machine

/-- The host presents a word after those already presented. -/
def present (w : CommandWord) (s : State) : State := { s with port := s.port ++ [w] }

/-- The engine takes the oldest word off the port. -/
def takeWord (s : State) : State := { s with port := s.port.tail }

/-- A word that decodes to no command (rules R44 and R99): `refuse(ST_ILLEGAL)`, no state written. -/
def refuseIllegal (s : State) : State := refuse .illegal s

/-- The word of a table row: its low `nbits` bits, every bit above them 0 (rule R40: one 128-bit word, bit 0 the least
significant). -/
def tableWord (nbits w : Nat) : CommandWord := BitVec.ofNat 128 (w % 2 ^ nbits)

/-- The state whose next command is the word `w`. -/
def presentFirst (w : CommandWord) (s : State) : State := { s with port := w :: s.port }

end Sys2Proof.Machine
end

