-- ==== Sys2Proof/Machine/Step.lean ====
section
/-!
DEFINITION. Machine/Step.lean: one step of the engine (20_memory.md rules R36 and R39, 60_exceptions.md rule R102): it takes the
next command word, decodes it, checks the mode and executes; with no word presented it does nothing (70_reset_and_hazards.md
rule R110).
-/

namespace Sys2Proof.Machine

/-- One step: the oldest word on the port is taken and runs to its response. -/
def step (s : State) : Host.Outcome State Fault Refusal :=
  match s.port with
  | [] => .next s
  | w :: _ =>
    match decode w with
    | .error _ => .next (refuseIllegal (takeWord s))
    | .ok i => exec i (takeWord s)

/-- The state whose next step runs the table row's word: the host presents it first (assumption 5). -/
def State.withFetchWord (s : State) (nbits w : Nat) : State := presentFirst (tableWord nbits w) s

end Sys2Proof.Machine
end

