-- ==== Sys2Proof/WellFormed.lean ====
section
/-!
DEFINITION. WellFormed.lean: which commands and which assembler lines are well formed (30_encoding.md rules R41, R47, R48;
20_memory.md rule R35; 60_exceptions.md rule R97). The operand types of `Instr` admit exactly the operands of rule R41, so
every command is well formed; the checks with something to refuse are those of the assembler's lines, where a key buffer
of a length other than 15 is the wrong-length key that the host must reject and cannot encode.
-/

namespace Sys2Proof

/-- Every command is well formed: `KEYOP` is exactly 120 bits, `CH` exactly 5, and nothing else is an operand (rule R35). -/
def Instr.wellFormed : Instr → Bool
  | .rst => true
  | .start => true
  | .stop => true
  | .abt => true
  | .chk => true
  | .ldk1 _ => true
  | .ldk2 _ => true
  | .shk1 => true
  | .shk2 => true
  | .kb1 => true
  | .kb2 => true
  | .rsk => true
  | .drv => true
  | .enc _ => true
  | .dec _ => true

/-- A key buffer has exactly 15 bytes (`KEY_BYTES`, rules R4 and R97). -/
def keyBufferOk (bytes : List Byte) : Bool := bytes.length == 15

/-- A unit is a numeral 0 to 31 (rule R47). -/
def unitOk (u : Nat) : Bool := decide (u < 32)

/-- A register number is 1 or 2 (rule R48). -/
def registerOk (n : Nat) : Bool := n == 1 || n == 2

/-- A line is well formed when its operand is the one its format takes (rules R47 and R48). -/
def Line.wellFormed : Line → Bool
  | .plain m => m.format == .n
  | .key m bytes => m.format == .k && keyBufferOk bytes
  | .unit m u => m.format == .c && unitOk u
  | .ldk n bytes => registerOk n && keyBufferOk bytes
  | .shk n => registerOk n
  | .kb n => registerOk n
  | .keys bytes1 bytes2 => keyBufferOk bytes1 && keyBufferOk bytes2
  | .encs us => !us.isEmpty && us.all unitOk
  | .decs us => !us.isEmpty && us.all unitOk
  | .run => true

end Sys2Proof
end

