-- ==== Sys2Proof/Machine/Assembler.lean ====
section
/-!
DEFINITION. Machine/Assembler.lean: the assembler (30_encoding.md rules R42, R47 and R48): the host's side of the command port. A
line of text is read, checked, expanded and encoded. What the rules leave open of the text is assumption 10.
-/

namespace Sys2Proof.Machine

/-- `KEYOP` of a key buffer, read as a little-endian integer: byte `b[i]` is `KEYOP[8i+7:8i]` (rule R42). -/
def keyopNat : List Byte → Nat
  | [] => 0
  | b :: bs => b.toNat + 256 * keyopNat bs

/-- `KEYOP[119:0]` of a key buffer (rule R42). -/
def keyopOfBytes (bytes : List Byte) : KeyRing := BitVec.ofNat 120 (keyopNat bytes)

/-- The commands of a line that is known to be well formed (rules R47 and R48). -/
def lineCommands : Line → List Instr
  | .plain m => [m.build 0#120]
  | .key m bytes => [m.build (keyopOfBytes bytes)]
  | .unit m u => [m.build (BitVec.ofNat 120 u)]
  | .ldk n bytes => [if n = 1 then .ldk1 (keyopOfBytes bytes) else .ldk2 (keyopOfBytes bytes)]
  | .shk n => [if n = 1 then .shk1 else .shk2]
  | .kb n => [if n = 1 then .kb1 else .kb2]
  | .keys bytes1 bytes2 => [.ldk1 (keyopOfBytes bytes1), .ldk2 (keyopOfBytes bytes2)]
  | .encs us => us.map fun u => .enc (BitVec.ofNat 5 u)
  | .decs us => us.map fun u => .dec (BitVec.ofNat 5 u)
  | .run => [.rst, .start]

/-- The commands of a line, if it is well formed: a key buffer of another length than 15 is rejected here, by the host (rule
R97). -/
def expandLine (l : Line) : Option (List Instr) := if l.wellFormed then some (lineCommands l) else none

/-- The command words of a line (rule R47). -/
def assembleLine (l : Line) : Option (List CommandWord) := (expandLine l).map (List.map encode)

/-- The 32 hexadecimal digits of a command word, most significant first (rule R47). -/
def hexDigits (w : CommandWord) : List Char :=
  (List.range 32).map fun i => (Nat.digitChar (w.toNat / 16 ^ (31 - i) % 16)).toUpper

/-! ### Reading a line of text (rule R47) -/

/-- The mnemonics as rule R43 writes them. -/
def mnemonicName : Mnemonic → String
  | .rst => "RST"
  | .start => "START"
  | .stop => "STOP"
  | .abt => "ABT"
  | .chk => "CHK"
  | .ldk1 => "LDK1"
  | .ldk2 => "LDK2"
  | .shk1 => "SHK1"
  | .shk2 => "SHK2"
  | .kb1 => "KB1"
  | .kb2 => "KB2"
  | .rsk => "RSK"
  | .drv => "DRV"
  | .enc => "ENC"
  | .dec => "DEC"

/-- The line without its comment: a `;` starts one (rule R47). -/
def dropComment (text : List Char) : List Char := text.takeWhile (· != ';')

/-- The tokens of a line: runs of other characters between blanks; a comma and a slash are tokens of their own. `cur` is the
token being read, its last character first. -/
def tokens : List Char → List Char → List (List Char)
  | [], cur => if cur.isEmpty then [] else [cur.reverse]
  | ch :: rest, cur =>
    let done := if cur.isEmpty then [] else [cur.reverse]
    if ch == ' ' || ch == '\t' then done ++ tokens rest []
    else if ch == ',' || ch == '/' then done ++ [[ch]] ++ tokens rest []
    else tokens rest (ch :: cur)

/-- The value of a hexadecimal digit. -/
def hexValue (ch : Char) : Option Nat :=
  (List.range 16).find? fun v => Nat.digitChar v == ch || (Nat.digitChar v).toUpper == ch

/-- A byte: two hexadecimal digits (rule R47). -/
def byteOf : List Char → Option Byte
  | [hi, lo] =>
    match hexValue hi, hexValue lo with
    | some h, some l => some (BitVec.ofNat 8 (16 * h + l))
    | _, _ => none
  | _ => none

/-- Digits in a base, most significant first. -/
def digitsOf (base : Nat) : List Char → Nat → Option Nat
  | [], acc => some acc
  | ch :: rest, acc =>
    match hexValue ch with
    | some v => if v < base then digitsOf base rest (base * acc + v) else none
    | none => none

/-- A numeral: decimal, or hexadecimal after `0x` (rules R6 and R47). -/
def numeralOf : List Char → Option Nat
  | [] => none
  | ['0', 'x'] => none
  | '0' :: 'x' :: ds => digitsOf 16 ds 0
  | ds => digitsOf 10 ds 0

/-- The mnemonic of a name (rule R43). -/
def mnemonicOf (name : List Char) : Option Mnemonic := Mnemonic.all.find? fun m => (mnemonicName m).toList == name

/-- The line of a list of tokens: a command (rule R47). -/
def commandLine (m : Mnemonic) (operands : List (List Char)) : Option Line :=
  match m.format with
  | .n => if operands.isEmpty then some (.plain m) else none
  | .k => (operands.mapM byteOf).map (.key m)
  | .c =>
    match operands with
    | [u] => (numeralOf u).map (.unit m)
    | _ => none

/-- The line of a list of tokens: a pseudo-command (rule R48). -/
def pseudoLine (name : List Char) (operands : List (List Char)) : Option Line :=
  if name == "LDK".toList then
    match operands with
    | n :: [','] :: bytes =>
      match numeralOf n, bytes.mapM byteOf with
      | some k, some bs => some (.ldk k bs)
      | _, _ => none
    | _ => none
  else if name == "SHK".toList then
    match operands with
    | [n] => (numeralOf n).map .shk
    | _ => none
  else if name == "KB".toList then
    match operands with
    | [n] => (numeralOf n).map .kb
    | _ => none
  else if name == "KEYS".toList then
    match (operands.takeWhile (· != ['/'])).mapM byteOf, ((operands.dropWhile (· != ['/'])).drop 1).mapM byteOf with
    | some bs1, some bs2 => some (.keys bs1 bs2)
    | _, _ => none
  else if name == "ENCS".toList then (operands.mapM numeralOf).map .encs
  else if name == "DECS".toList then (operands.mapM numeralOf).map .decs
  else if name == "RUN".toList then (if operands.isEmpty then some .run else none)
  else none

/-- The line of a text. An empty line, or a comment alone, is no line. -/
def readLine (text : List Char) : Option Line :=
  match tokens (dropComment text) [] with
  | [] => none
  | name :: operands =>
    match mnemonicOf name with
    | some m => commandLine m operands
    | none => pseudoLine name operands

/-- The command words of a line of text (rules R47 and R48). -/
def assembleText (text : List Char) : Option (List CommandWord) := (readLine text).bind assembleLine

end Sys2Proof.Machine
end

