-- ==== Sys2Proof/Machine/Configure.lean ====
section
/-!
DEFINITION. Machine/Configure.lean: how an engine is given its configuration before power-on (10_state.md rules R22 and R23,
20_memory.md rule R31, 93_implementation_defined.md I5): the codes of the configuration inputs, the bit-vector form of a profile,
the refusal of a configuration out of range, and the check of Z that rule R62 allows a model to make. No command does any of
this.
-/

namespace Sys2Proof.Machine

/-- The code of `KEYBIT_SEL`: `HIGH` = 0, `LOW` = 1 (rule R22). -/
def selectorCode : KeyBitSel → BitVec 1
  | .high => 0#1
  | .low => 1#1

/-- The selector of a code (rule R22). -/
def selectorOf (code : BitVec 1) : KeyBitSel := if code = 0#1 then .high else .low

/-- `LTK_ID` (rule R23): 0 to 10 select a profile, 11 to 15 are not allowed. -/
def ltkIdOf (id : BitVec 4) : Option (Fin 11) :=
  if h : id.toNat < 11 then some ⟨id.toNat, h⟩ else none

/-- Field `e` of `LTK_CFG`: `[6e+5:6e]` (rule R23). -/
def cfgField (v : BitVec 222) (e : Nat) : BitVec 6 := v.extractLsb' (6 * e) 6

/-- A field that may hold a position only: `P[1..27]` and `ALPHA` (rule R23). -/
def positionField (f : BitVec 6) : Bool := decide (f.toNat < 36)

/-- A field that may hold a position or `NONE` = 63: `D[1..9]` (rule R23). -/
def positionOrNoneField (f : BitVec 6) : Bool := decide (f.toNat < 36) || f == 63#6

/-- The position in a field that holds one. -/
def fieldPosition (f : BitVec 6) : UPos := if h : f.toNat < 36 then ⟨f.toNat, h⟩ else 0

/-- The entry of D in a field that holds one. -/
def fieldEntry (f : BitVec 6) : Option UPos := if f = 63#6 then none else some (fieldPosition f)

/-- Whether every field of `LTK_CFG` holds an allowed value: 36 to 62 never, 63 in the D fields only (rule R23). -/
def cfgAllowed (v : BitVec 222) : Bool :=
  (List.range 27).all (fun e => positionField (cfgField v e))
    && (List.range 9).all (fun e => positionOrNoneField (cfgField v (27 + e)))
    && positionField (cfgField v 36)

/-- The profile of `LTK_CFG`, refused if a field is out of range (rule R23). -/
def profileOfCfg (v : BitVec 222) : Option Profile :=
  if cfgAllowed v then
    some
      { p := Vector.ofFn fun i => fieldPosition (cfgField v i.val)
        d := Vector.ofFn fun i => fieldEntry (cfgField v (27 + i.val))
        alpha := fieldPosition (cfgField v 36) }
  else none

/-- The field of a position. -/
def positionCode (i : UPos) : BitVec 6 := BitVec.ofNat 6 i.val

/-- The field of an entry of D: its position, 63 for `NONE` (rule R23). -/
def entryCode : Option UPos → BitVec 6
  | some i => positionCode i
  | none => 63#6

/-- The 37 fields of a profile, field 0 first (rule R23). -/
def profileFields (l : Profile) : List (BitVec 6) :=
  l.p.toList.map positionCode ++ l.d.toList.map entryCode ++ [positionCode l.alpha]

/-- Six-bit fields as one number, the first field the least significant. -/
def packFields : List (BitVec 6) → Nat
  | [] => 0
  | f :: fs => f.toNat + 64 * packFields fs

/-- `LTK_CFG[221:0]` of a profile (rule R23). -/
def cfgOfProfile (l : Profile) : BitVec 222 := BitVec.ofNat 222 (packFields (profileFields l))

/-- A configuration from the configuration inputs (rules R5, R22, R23, R31), refused if `LTK_ID` or a field of any profile of the
catalogue is out of range (assumption 9). -/
def configure (sel : BitVec 1) (id : BitVec 4) (rom : Vector (BitVec 222) 11) (z : BitVec 64) (uInit : UReg) : Option Config :=
  match ltkIdOf id with
  | none => none
  | some i =>
    if rom.all fun v => (profileOfCfg v).isSome then
      some
        { keybitSel := selectorOf sel
          ltkId := i
          ltkRom := rom.map fun v => (profileOfCfg v).getD default
          z := z
          uInit := uInit }
    else none

/-! ### The check of Z (rule R62) -/

/-- Whether the exponents of a monomial, a number of six bits, lie inside those of `x`. -/
def monomialDivides (m x : Nat) : Bool := m &&& x == m

/-- The coefficient of the monomial `m` in the algebraic normal form of a truth table: the XOR of the table over the arguments
inside `m`. -/
def anfCoefficient (z : BitVec 64) (m : Nat) : Bool :=
  xorBits (fun x => monomialDivides x m && z.getLsbD x) 64

/-- The degree of a monomial: the ones among its six bits. -/
def monomialDegree (m : Nat) : Nat := (List.range 6).countP m.testBit

/-- The algebraic degree of a truth table (0 for the zero function). -/
def algebraicDegree (z : BitVec 64) : Nat :=
  (List.range 64).foldl (fun d m => if anfCoefficient z m then max d (monomialDegree m) else d) 0

/-- What the source fixes about Z, "six inputs, algebraic degree exactly 5": a model may check it of the function it is given
(rule R62). -/
def zHasDegreeFive (z : BitVec 64) : Bool := algebraicDegree z == 5

end Sys2Proof.Machine
end

