-- ==== Sys2Proof/Safety.lean ====
section
/-!
DEFINITION. Safety.lean: the vocabulary of the claims. What "unchanged" means field by field, the tables of the spec that say
which command is legal in which mode, where it leads and what it may write (44_controller.md rules R86 and R87, 10_state.md rule
R28), the bit-level readings of the key store's and the cipher's functions, and the invariant of the engine (rules R29 and R85).
Nothing here is used by the machine.
-/

namespace Sys2Proof.Machine

/-! ### Frames -/

/-- The fields of `State`, by name. -/
inductive Field where
  | s1 | s2 | s1Orig | s2Orig | ld1 | ld2 | u | warm | mode | err | cfg | fpos | fKnown | port | responses
deriving DecidableEq, Repr

/-- The field has the same value in both states. -/
def Field.same (f : Field) (s t : State) : Prop :=
  match f with
  | .s1 => t.s1 = s.s1
  | .s2 => t.s2 = s.s2
  | .s1Orig => t.s1Orig = s.s1Orig
  | .s2Orig => t.s2Orig = s.s2Orig
  | .ld1 => t.ld1 = s.ld1
  | .ld2 => t.ld2 = s.ld2
  | .u => t.u = s.u
  | .warm => t.warm = s.warm
  | .mode => t.mode = s.mode
  | .err => t.err = s.err
  | .cfg => t.cfg = s.cfg
  | .fpos => t.fpos = s.fpos
  | .fKnown => t.fKnown = s.fKnown
  | .port => t.port = s.port
  | .responses => t.responses = s.responses

/-- Every field but those listed is unchanged from `s` to `t`. -/
def unchangedExcept (fs : List Field) (s t : State) : Prop := ∀ f : Field, f ∉ fs → f.same s t

/-- The response port of `t` is that of `s` with one response more. -/
def answered (r : ResponseWord) (s t : State) : Prop := t.responses = s.responses ++ [r]

/-! ### The controller's tables -/

/-- The modes in which each command is accepted (rule R87). -/
def legalIn : Mnemonic → List Mode
  | .rst => [.idle, .keysValidated, .running, .finished, .aborted]
  | .start => [.idle]
  | .stop => [.keysValidated, .running]
  | .abt => [.idle, .keysValidated]
  | .chk => [.idle, .keysValidated, .running, .finished, .aborted]
  | .ldk1 => [.idle]
  | .ldk2 => [.idle]
  | .shk1 => [.idle]
  | .shk2 => [.idle]
  | .kb1 => [.idle, .keysValidated, .running, .finished, .aborted]
  | .kb2 => [.idle, .keysValidated, .running, .finished, .aborted]
  | .rsk => [.idle]
  | .drv => [.keysValidated, .running]
  | .enc => [.keysValidated, .running]
  | .dec => [.keysValidated, .running]

/-- The number of one bits in a key register. -/
def onesIn (r : KeyRing) : Nat := (List.range 120).countP fun i => r.getLsbD i

/-- Odd parity: "the number of one bits among the 120 is odd" (rule R50). -/
def oddOnes (r : KeyRing) : Bool := onesIn r % 2 == 1

/-- The condition under which START validates: both keys loaded, both snapshots of odd parity (rules R86 and R90). -/
abbrev keysGood (s : State) : Prop := s.ld1 = true ∧ s.ld2 = true ∧ oddOnes s.s1Orig ∧ oddOnes s.s2Orig

/-- The full next-state function of rule R86, as a relation: the command `m`, given in `s`, leads to the mode `q`. -/
def modeAfter (m : Mnemonic) (s : State) (q : Mode) : Prop :=
  match m with
  | .rst => q = .idle
  | .start =>
    if s.mode = .idle then (keysGood s → q = .keysValidated) ∧ (¬ keysGood s → q = .aborted) else q = s.mode
  | .stop => if s.mode = .keysValidated ∨ s.mode = .running then q = .finished else q = s.mode
  | .abt => if s.mode = .idle ∨ s.mode = .keysValidated then q = .aborted else q = s.mode
  | .chk => q = s.mode
  | .kb1 => q = s.mode
  | .kb2 => q = s.mode
  | .ldk1 => q = s.mode
  | .ldk2 => q = s.mode
  | .shk1 => q = s.mode
  | .shk2 => q = s.mode
  | .rsk => q = s.mode
  | .drv => if s.mode = .keysValidated then q = .running else q = s.mode
  | .enc => if s.mode = .keysValidated then q = .running else q = s.mode
  | .dec => if s.mode = .keysValidated then q = .running else q = s.mode

/-- What each command may write (rule R28, read by command), and the response every command gives (rule R46). -/
def writtenBy : Mnemonic → List Field
  | .rst => [.s1, .s2, .u, .warm, .mode, .err, .responses]
  | .start => [.s1, .s2, .u, .warm, .mode, .err, .responses]
  | .stop => [.mode, .responses]
  | .abt => [.mode, .err, .responses]
  | .chk => [.responses]
  | .ldk1 => [.s1, .s1Orig, .ld1, .responses]
  | .ldk2 => [.s2, .s2Orig, .ld2, .responses]
  | .shk1 => [.s1, .responses]
  | .shk2 => [.s2, .responses]
  | .kb1 => [.responses]
  | .kb2 => [.responses]
  | .rsk => [.s1, .s2, .responses]
  | .drv => [.s1, .s2, .u, .warm, .mode, .fpos, .responses]
  | .enc => [.s1, .s2, .u, .warm, .mode, .fpos, .responses]
  | .dec => [.s1, .s2, .u, .warm, .mode, .fpos, .responses]

/-- The commands that make one derivation (rule R124). -/
def derives : Mnemonic → Bool
  | .drv => true
  | .enc => true
  | .dec => true
  | .rst => false
  | .start => false
  | .stop => false
  | .abt => false
  | .chk => false
  | .ldk1 => false
  | .ldk2 => false
  | .shk1 => false
  | .shk2 => false
  | .kb1 => false
  | .kb2 => false
  | .rsk => false

/-- The inner rounds of the warm-up that a derivation from `s` makes first: 133 if none has been made since the last machine
reset, else 0 (rule R70). -/
def warmupLeft (s : State) : Nat := if s.warm = true then 0 else 133

/-- The command is refused with `ST_BADMODE` in every mode but the listed ones: response `0x8000`, no other field written
(rule R100). -/
def refusedElsewhere (i : Instr) (legal : List Mode) : Prop :=
  ∀ s : State, s.mode ∉ legal → ∃ t, exec i s = .next t ∧ unchangedExcept [.responses] s t ∧ answered 0x8000#16 s t

/-- How many low bits of `DOUT` an accepted command may use (rule R46): 13 for DRV, 5 for ENC and DEC, 1 for a boolean, else
none. -/
def dataBits : Mnemonic → Nat
  | .drv => 13
  | .enc => 5
  | .dec => 5
  | .ldk1 => 1
  | .ldk2 => 1
  | .chk => 1
  | .kb1 => 1
  | .kb2 => 1
  | .start => 1
  | .rst => 0
  | .stop => 0
  | .abt => 0
  | .shk1 => 0
  | .shk2 => 0
  | .rsk => 0

/-! ### Readings bit by bit -/

/-- `r` is `orig` rotated right by `n` places on the 120-bit ring (rules R29 and R51). -/
def isRotation (n : Nat) (orig r : KeyRing) : Prop := ∀ i, i < 120 → r.getLsbD i = orig.getLsbD ((i + n) % 120)

/-- `KEYBIT(r)` in the bits of rule R52. -/
def keyBitOf (sel : KeyBitSel) (r : KeyRing) : Bool := if sel = .high then r.getLsbD 0 else r.getLsbD 119

/-- The bit of U at a position, 0 for `NONE` (rule R63). -/
def bitAt (u : UReg) (d : Option UPos) : Bool :=
  match d with
  | some i => u.getLsbD i.val
  | none => false

/-- The profile the engine uses, `LTK_ROM[LTK_ID]` (rule R23). -/
def profileInUse (s : State) : Profile := s.cfg.ltkRom[s.cfg.ltkId]

/-- `p(i) = U[P[i]]`, `i` from 1 to 27 (rule R64). -/
def pReads (s : State) (i : Nat) : Bool := s.u.getLsbD ((profileInUse s).p.toList.getD (i - 1) 0).val

/-- `DSEL(U, D[i])`, `i` from 1 to 9 (rule R65). -/
def dReads (s : State) (i : Nat) : Bool := bitAt s.u ((profileInUse s).d.toList.getD (i - 1) none)

/-- The tap bit `U[ALPHA]` (rule R71). -/
def tapReads (s : State) : Bool := s.u.getLsbD (profileInUse s).alpha.val

/-- The five bits of `NEXT(x)` (rule R75): bit 0 is `x[4] ^ x[2]`, bit `i` is `x[i-1]`. -/
def nextBits (x : CharUnit) (i : Nat) : Bool := if i = 0 then x.getLsbD 4 ^^ x.getLsbD 2 else x.getLsbD (i - 1)

/-- The shift counts `n(a)` of rule R78, `a` from 0 to 31. -/
def shiftCounts : List Nat :=
  [0, 13, 12, 26, 11, 8, 25, 2, 15, 10, 17, 7, 5, 24, 21, 1,
   14, 27, 9, 3, 16, 18, 6, 22, 28, 4, 19, 23, 29, 20, 30, 0]

/-- `n(a)` (rule R78). -/
def shiftCount (a : CharUnit) : Nat := shiftCounts.getD a.toNat 0

/-- `NEXT^n(x)`. -/
def nextTimes : Nat → CharUnit → CharUnit
  | 0, x => x
  | n + 1, x => nextTimes n (lfsrNext x)

/-- `ENC5` in the closed form of rule R80: `m = NEXT^n(KLO(k))(0x1F)`, `ENC5(k, p) = NEXT^n(m)(KHI(k) ^ p)`. -/
def enc5Closed (k : KVal) (p : CharUnit) : CharUnit :=
  nextTimes (shiftCount (nextTimes (shiftCount (k.extractLsb' 0 5)) 0x1F#5)) (k.extractLsb' 6 5 ^^^ p)

/-- `DEC5` in the closed form of rule R81: `NEXT^n(KLO(k))(c) ^ KHI(k)`. -/
def dec5Closed (k : KVal) (c : CharUnit) : CharUnit :=
  nextTimes (shiftCount (k.extractLsb' 0 5)) c ^^^ k.extractLsb' 6 5

/-! ### Runs -/

/-- `n` steps of the engine. -/
def run : Nat → State → Host.Outcome State Fault Refusal
  | 0, s => .next s
  | n + 1, s =>
    match step s with
    | .next t => run n t
    | .fault r => .fault r
    | .refused r => .refused r

/-- No word on the command port is RST. -/
def noReset (s : State) : Prop := ∀ w ∈ s.port, decode w ≠ .ok .rst

/-- Two engines that will make the same derivations: the same configuration, the same U, S1, S2 and WARM, and the same F-bits
from where each of them stands (rules R74, R114, R116, R117). -/
def sameGenerator (a b : State) : Prop :=
  a.cfg = b.cfg ∧ a.u = b.u ∧ a.s1 = b.s1 ∧ a.s2 = b.s2 ∧ a.warm = b.warm
    ∧ ∀ n, a.fBit (a.fpos + n) = b.fBit (b.fpos + n)

/-! ### The invariant -/

/-- What holds of the engine between commands (rules R29, R85, R88, R97). -/
structure State.Inv (s : State) : Prop where
  /-- ERR is nonzero exactly in `ABORTED` (rules R29(c), R96, R103) -/
  err_iff_aborted : s.err ≠ .none ↔ s.mode = .aborted
  /-- the engine never writes `ERR_KEY_LENGTH` (rule R97) -/
  err_not_length : s.err ≠ .keyLength
  /-- before the first character U is `U_INIT` and no warm-up has been run (rules R85 and R88) -/
  fresh_before_run : s.mode = .idle ∨ s.mode = .keysValidated ∨ s.mode = .aborted → s.warm = false ∧ s.u = s.cfg.uInit
  /-- in `RUNNING` the warm-up has been run (rules R70 and R91) -/
  warm_when_running : s.mode = .running → s.warm = true
  /-- in `KEYS_VALIDATED` both key registers stand as restored (rule R85) -/
  restored_when_validated : s.mode = .keysValidated → s.s1 = s.s1Orig ∧ s.s2 = s.s2Orig
  /-- a run has both keys loaded and both registers of odd parity (rules R29(a) and R85) -/
  valid_in_run : s.mode = .keysValidated ∨ s.mode = .running ∨ s.mode = .finished →
    s.ld1 = true ∧ s.ld2 = true ∧ oddOnes s.s1 ∧ oddOnes s.s2
  /-- each key register is its snapshot, rotated (rule R29(b)) -/
  s1_rotated : ∃ n, isRotation n s.s1Orig s.s1
  s2_rotated : ∃ n, isRotation n s.s2Orig s.s2
  /-- in a run the two registers are rotated by the same amount: one shift of both per round (rules R29(b) and R67) -/
  lockstep_in_run : s.mode = .keysValidated ∨ s.mode = .running ∨ s.mode = .finished →
    ∃ n, isRotation n s.s1Orig s.s1 ∧ isRotation n s.s2Orig s.s2
  /-- a register never loaded is empty (rules R13 and R110) -/
  s1_empty : s.ld1 = false → s.s1 = 0#120 ∧ s.s1Orig = 0#120
  s2_empty : s.ld2 = false → s.s2 = 0#120 ∧ s.s2Orig = 0#120

end Sys2Proof.Machine
end

