-- ==== Sys2Proof/Certificates/Slice0/Obligations.lean ====
section
/-!
DEFINITION. Obligations.lean: the statements for the provers. Each docstring names the rule of spec/ it formalises. A response is
written as the 16-bit word of rule R46 (`0x8000` is `ST_BADMODE`, `0x4000` is `ST_ILLEGAL`), so that no statement leans on the
function that forms it.
-/

open Sys2Proof Sys2Proof.Machine

/-! ### Encoding -/

/-- Words written out from rule R43 and 95_test_vectors.md section 2.1, and what each is. -/
def Obligations.WordsOfTheOpcodeMapDecode : Prop :=
  decode 0x02000000000000000000000000000000#128 = .ok .start
  ∧ decode 0x08000000000000000000000000000000#128 = .ok .chk
  ∧ decode 0x10100E0D0C0B0A090807060504030201#128 = .ok (.ldk1 0x100E0D0C0B0A090807060504030201#120)
  ∧ decode 0x13000000000000000000000000000000#128 = .ok .shk2
  ∧ decode 0x20000000000000000000000000000000#128 = .ok .drv
  ∧ decode 0x2100000000000000000000000000001F#128 = .ok (.enc 0x1F#5)
  ∧ decode 0x22000000000000000000000000000016#128 = .ok (.dec 0x16#5)
  ∧ decode 0x00000000000000000000000000000000#128 = .error (.unassignedOpcode 0x00#8)
  ∧ decode 0x20800000000000000000000000000000#128 = .error (.reservedBits .drv)
  ∧ decode 0x21000000000000000000000000000020#128 = .error (.reservedBits .enc)

/-- Decoding an encoded command gives it back, with every operand at every value (rules R40 to R43). -/
def Obligations.DecodeOfEncodeIsTheCommand : Prop :=
  ∀ i : Instr, i.wellFormed = true → decode (encode i) = .ok i

/-- Every word has one meaning: the word of the command that it decodes to is that word (rules R41, R43, R45). -/
def Obligations.EncodeOfDecodeIsTheWord : Prop :=
  ∀ (w : CommandWord) (i : Instr), decode w = .ok i → encode i = w

/-- Rule R43, match and mask: a word matches a row of the opcode map exactly when it decodes to that row's command. The rows,
opcodes and masks are written out here. -/
def Obligations.MatchAndMaskSelectTheCommand : Prop :=
  let n := 0xFFFFFFFFFFFFFFFFFFFFFFFFFFFFFFFF#128
  let k := 0xFF000000000000000000000000000000#128
  let c := 0xFFFFFFFFFFFFFFFFFFFFFFFFFFFFFFE0#128
  ∀ row ∈ [(Mnemonic.rst, 0x01#8, n), (.start, 0x02#8, n), (.stop, 0x03#8, n), (.abt, 0x04#8, n), (.chk, 0x08#8, n),
      (.ldk1, 0x10#8, k), (.ldk2, 0x11#8, k), (.shk1, 0x12#8, n), (.shk2, 0x13#8, n), (.kb1, 0x14#8, n), (.kb2, 0x15#8, n),
      (.rsk, 0x16#8, n), (.drv, 0x20#8, n), (.enc, 0x21#8, c), (.dec, 0x22#8, c)],
    ∀ w : CommandWord,
      w &&& row.2.2 = row.2.1.setWidth 128 <<< 120 ↔ ∃ i, decode w = .ok i ∧ i.mnemonic = row.1

/-- Rules R44 and R99: a word is illegal exactly when its opcode is not assigned or a reserved bit of format N or C is set; an
illegal word is answered `0x4000`, changes no state but the two ports and consumes no F-bit. -/
def Obligations.IllegalWordsAreRefusedWithNoEffect : Prop :=
  (∀ w : CommandWord, (∃ e, decode w = .error e) ↔
      (w.extractLsb' 120 8 ∉ [0x01#8, 0x02#8, 0x03#8, 0x04#8, 0x08#8, 0x10#8, 0x11#8, 0x12#8, 0x13#8, 0x14#8, 0x15#8, 0x16#8,
        0x20#8, 0x21#8, 0x22#8]
      ∨ (w.extractLsb' 120 8 ∈ [0x01#8, 0x02#8, 0x03#8, 0x04#8, 0x08#8, 0x12#8, 0x13#8, 0x14#8, 0x15#8, 0x16#8, 0x20#8]
          ∧ w.extractLsb' 0 120 ≠ 0#120)
      ∨ (w.extractLsb' 120 8 ∈ [0x21#8, 0x22#8] ∧ w.extractLsb' 5 115 ≠ 0#115)))
  ∧ ∀ (s : State) (w : CommandWord) (rest : List CommandWord) (e : DecodeError), s.port = w :: rest → decode w = .error e →
      ∃ t, step s = .next t ∧ t.port = rest ∧ answered 0x4000#16 s t ∧ unchangedExcept [.port, .responses] s t

/-- The per-command statements reach a run through this one: when the oldest word on the port decodes to a command, the step is
that command, run with the word taken (rules R36, R45, R102). -/
def Obligations.StepRunsTheDecodedCommand : Prop :=
  ∀ (s : State) (w : CommandWord) (rest : List CommandWord) (i : Instr), s.port = w :: rest → decode w = .ok i →
    step s = exec i { s with port := rest }

/-- With no command presented the engine does nothing (rule R110: it "does nothing until the first command"). The port is the
model's form of rule R110 (assumption 3). -/
def Obligations.StepWithNoCommandChangesNothing : Prop :=
  ∀ s : State, s.port = [] → step s = .next s

/-- A table word of 128 bits is decoded as the command word it is, and the word that the host presents first is the command that
the next step runs (assumption 5). -/
def Obligations.WordPresentedFirstRunsNext : Prop :=
  (∀ (w : CommandWord) (i : Instr), decodeTableWord 128 w.toNat = some i ↔ decode w = .ok i)
  ∧ ∀ (s : State) (nbits w : Nat) (i : Instr), decodeTableWord nbits w = some i → step (s.withFetchWord nbits w) = exec i s

/-! ### The mode check, the response, the write ownership -/

/-- Rules R87 and R100: a command is accepted (status `ST_OK`) in exactly the modes of rule R87; in another it is answered
`0x8000` and nothing else is written. -/
def Obligations.AcceptedExactlyInItsModes : Prop :=
  (∀ (i : Instr) (s : State), s.mode ∈ legalIn i.mnemonic →
    ∃ t r, exec i s = .next t ∧ answered r s t ∧ r.extractLsb' 14 2 = 0#2)
  ∧ ∀ i : Instr, refusedElsewhere i (legalIn i.mnemonic)

/-- Rule R86, the full next-state function: the mode each command leads to, and which cells of the table are refusals. -/
def Obligations.NextModeFollowsTheTable : Prop :=
  ∀ (i : Instr) (s : State), ∃ t r, exec i s = .next t ∧ modeAfter i.mnemonic s t.mode ∧ answered r s t
    ∧ r.extractLsb' 14 2 = if s.mode ∈ legalIn i.mnemonic then 0#2 else 2#2

/-- Rule R28 read by command, with the values its table gives in brackets: MODE is moved by a derivation from 1 to 2 only, WARM
is set by a derivation and cleared by RST and START, ERR is written by START and ABT on an abort only, U goes to `U_INIT` by
RST and START, and U, S1, S2 and FPOS move in a derivation by rounds alone. -/
def Obligations.EachCommandWritesOnlyItsState : Prop :=
  ∀ (i : Instr) (s t : State), exec i s = .next t →
    unchangedExcept (writtenBy i.mnemonic) s t
    ∧ (derives i.mnemonic = true → (t.mode = s.mode ∨ (s.mode = .keysValidated ∧ t.mode = .running))
        ∧ (t.warm = s.warm ∨ t.warm = true)
        ∧ ∃ n, t.u = (rounds n s).u ∧ t.s1 = (rounds n s).s1 ∧ t.s2 = (rounds n s).s2 ∧ t.fpos = s.fpos + n)
    ∧ (i = .start ∨ i = .rst → t.warm = s.warm ∧ t.u = s.u ∨ t.warm = false ∧ t.u = s.cfg.uInit)
    ∧ (i = .start ∨ i = .abt → t.err = s.err ∨ t.mode = .aborted)
    ∧ (i = .rst → t.err = .none)

/-- Rule R46: every word taken gives exactly one response, with bit 13 clear, a status other than 3, data no wider than the
command's, and, when the status is not `ST_OK`, data 0 and no state changed. -/
def Obligations.EveryWordIsAnsweredOnce : Prop :=
  ∀ (s : State) (w : CommandWord) (rest : List CommandWord), s.port = w :: rest →
    ∃ t r, step s = .next t ∧ t.port = rest ∧ answered r s t ∧ r.getLsbD 13 = false ∧ r.extractLsb' 14 2 ≠ 3#2
      ∧ (r.extractLsb' 14 2 ≠ 0#2 → r.extractLsb' 0 13 = 0#13 ∧ unchangedExcept [.port, .responses] s t)
      ∧ ∀ i, decode w = .ok i → (r.extractLsb' 0 13).toNat < 2 ^ dataBits i.mnemonic

/-- Rule R37: the F-bits a command consumes: 133 + 1778 for the first derivation after a reset, 1778 for a later one, none for
any other command and none for a refused one or an illegal word; the stream itself is never rewound or changed; KB1, KB2 and
CHK write nothing. -/
def Obligations.FBitsAreConsumedByDerivationsOnly : Prop :=
  (∀ (i : Instr) (s : State), ∃ t, exec i s = .next t ∧ (∀ n, t.fBit n = s.fBit n)
    ∧ t.fpos = s.fpos
      + (if derives i.mnemonic = true ∧ s.mode ∈ legalIn i.mnemonic then (if s.warm = true then 1778 else 133 + 1778) else 0))
  ∧ (∀ (i : Instr) (s : State), i ∈ [Instr.kb1, .kb2, .chk] → ∃ t, exec i s = .next t ∧ unchangedExcept [.responses] s t)
  ∧ ∀ (s : State) (w : CommandWord) (rest : List CommandWord) (e : DecodeError), s.port = w :: rest → decode w = .error e →
      ∃ t, step s = .next t ∧ t.fpos = s.fpos ∧ unchangedExcept [.port, .responses] s t

/-- Rule R39: the response to a command reflects nothing of the commands after it. Whatever words follow them, the first words on
the port have the same effects and the same responses. -/
def Obligations.LaterCommandsHaveNoEffectBefore : Prop :=
  ∀ (ws rest rest' : List CommandWord) (s : State), ∃ a b,
    run ws.length { s with port := ws ++ rest } = .next a ∧ run ws.length { s with port := ws ++ rest' } = .next b
    ∧ a.port = rest ∧ b.port = rest' ∧ unchangedExcept [.port] a b

/-! ### The key register store -/

/-- Rule R50: `PAR` is 1 exactly when the number of one bits is odd; the empty register and the all-ones register are not
valid. -/
def Obligations.ParityIsTheCountOfOnes : Prop :=
  (∀ r : KeyRing, par r = true ↔ oddOnes r) ∧ par 0#120 = false ∧ par (BitVec.allOnes 120) = false

/-- Rule R51: `RINGSHIFT` moves every bit one place down the ring, the low bit of each word to the top of the next; it is a
bijection, 120 shifts are the identity, and the parity stays. -/
def Obligations.RingShiftRotatesTheRing : Prop :=
  (∀ r : KeyRing, (ringShift r).getLsbD 119 = r.getLsbD 0 ∧ ∀ i, i < 119 → (ringShift r).getLsbD i = r.getLsbD (i + 1))
  ∧ (∀ r : KeyRing, (keyWord (ringShift r) 0).getLsbD 23 = (keyWord r 4).getLsbD 0
      ∧ (∀ j, j < 4 → (keyWord (ringShift r) (j + 1)).getLsbD 23 = (keyWord r j).getLsbD 0)
      ∧ ∀ j i, j < 5 → i < 23 → (keyWord (ringShift r) j).getLsbD i = (keyWord r j).getLsbD (i + 1))
  ∧ Function.Bijective ringShift
  ∧ (∀ r : KeyRing, ringShift^[120] r = r)
  ∧ ∀ r : KeyRing, par (ringShift r) = par r

/-- Rules R53 and R54: LDK1 and LDK2 write the words `W(S,j) = KEYOP[24j+23:24j]` to the register and the snapshot, set the LD
flag, answer the parity, and change nothing else, whatever the parity. -/
def Obligations.LoadWritesRegisterSnapshotAndFlag : Prop :=
  (∀ k : KeyRing, encode (.ldk1 k) = 0x10#8 ++ k ∧ refusedElsewhere (.ldk1 k) [.idle]
    ∧ ∀ s : State, s.mode = .idle → ∃ t, exec (.ldk1 k) s = .next t
      ∧ (∀ j, j < 5 → t.s1.extractLsb' (24 * (4 - j)) 24 = k.extractLsb' (24 * j) 24)
      ∧ t.s1Orig = t.s1 ∧ t.ld1 = true ∧ answered (if oddOnes t.s1 then 0x0001#16 else 0x0000#16) s t
      ∧ unchangedExcept [.s1, .s1Orig, .ld1, .responses] s t)
  ∧ ∀ k : KeyRing, encode (.ldk2 k) = 0x11#8 ++ k ∧ refusedElsewhere (.ldk2 k) [.idle]
    ∧ ∀ s : State, s.mode = .idle → ∃ t, exec (.ldk2 k) s = .next t
      ∧ (∀ j, j < 5 → t.s2.extractLsb' (24 * (4 - j)) 24 = k.extractLsb' (24 * j) 24)
      ∧ t.s2Orig = t.s2 ∧ t.ld2 = true ∧ answered (if oddOnes t.s2 then 0x0001#16 else 0x0000#16) s t
      ∧ unchangedExcept [.s2, .s2Orig, .ld2, .responses] s t

/-- Rules R32 and R33: byte `b[i]` of a 15-byte key buffer is, after the load, `W(S, i div 3)[8(i mod 3)+7 : 8(i mod 3)]`, that is
`Ring(S)[24(4 - i div 3) + 8(i mod 3) + 7 : ...]`; and `b[0] = 1` alone gives `Ring(S) = 1 << 96`. -/
def Obligations.KeyBytesLandInTheirWords : Prop :=
  (∀ (bytes : List Byte) (s : State) (i : Nat) (hi : i < bytes.length), bytes.length = 15 → s.mode = .idle →
    ∃ t1 t2, exec (.ldk1 (keyopOfBytes bytes)) s = .next t1 ∧ exec (.ldk2 (keyopOfBytes bytes)) s = .next t2
      ∧ t1.s1.extractLsb' (24 * (4 - i / 3) + 8 * (i % 3)) 8 = bytes[i]
      ∧ t2.s2.extractLsb' (24 * (4 - i / 3) + 8 * (i % 3)) 8 = bytes[i]
      ∧ (keyWord t1.s1 (i / 3)).extractLsb' (8 * (i % 3)) 8 = bytes[i])
  ∧ ∀ s : State, s.mode = .idle →
    ∃ t, exec (.ldk1 (keyopOfBytes (0x01#8 :: List.replicate 14 0x00#8))) s = .next t ∧ t.s1 = 1#120 <<< 96

/-- Rule R55: CHK answers whether both registers have odd parity, in every mode, and writes nothing. -/
def Obligations.CheckAnswersBothParities : Prop :=
  encode .chk = 0x08#8 ++ 0#120 ∧ ∀ s : State, ∃ t, exec .chk s = .next t ∧ unchangedExcept [.responses] s t
    ∧ answered (if oddOnes s.s1 ∧ oddOnes s.s2 then 0x0001#16 else 0x0000#16) s t

/-- Rules R56 and R57: SHK1 and SHK2 rotate their register by one bit and change nothing else. -/
def Obligations.ShiftRotatesItsRegisterOnly : Prop :=
  (encode .shk1 = 0x12#8 ++ 0#120 ∧ refusedElsewhere .shk1 [.idle]
    ∧ ∀ s : State, s.mode = .idle → ∃ t, exec .shk1 s = .next t ∧ isRotation 1 s.s1 t.s1 ∧ answered 0x0000#16 s t
      ∧ unchangedExcept [.s1, .responses] s t)
  ∧ encode .shk2 = 0x13#8 ++ 0#120 ∧ refusedElsewhere .shk2 [.idle]
    ∧ ∀ s : State, s.mode = .idle → ∃ t, exec .shk2 s = .next t ∧ isRotation 1 s.s2 t.s2 ∧ answered 0x0000#16 s t
      ∧ unchangedExcept [.s2, .responses] s t

/-- The corner case of rules R56 and R57, on the machine: 120 SHK1, or 120 SHK2, in a row restore the register. -/
def Obligations.HundredTwentyShiftsRestore : Prop :=
  ∀ (i : Instr) (s : State), i ∈ [Instr.shk1, .shk2] → s.mode = .idle → s.port = List.replicate 120 (encode i) →
    ∃ t, run 120 s = .next t ∧ t.port = [] ∧ unchangedExcept [.port, .responses] s t

/-- Rules R58 and R59 (with R52): KB1 and KB2 answer the bottommost bit of the ring under `HIGH` and the topmost under `LOW`, in
every mode, and write nothing. -/
def Obligations.KeyBitAnswersTheSelectedEnd : Prop :=
  (encode .kb1 = 0x14#8 ++ 0#120 ∧ ∀ s : State, ∃ t, exec .kb1 s = .next t ∧ unchangedExcept [.responses] s t
    ∧ answered (if keyBitOf s.cfg.keybitSel s.s1 = true then 0x0001#16 else 0x0000#16) s t)
  ∧ encode .kb2 = 0x15#8 ++ 0#120 ∧ ∀ s : State, ∃ t, exec .kb2 s = .next t ∧ unchangedExcept [.responses] s t
    ∧ answered (if keyBitOf s.cfg.keybitSel s.s2 = true then 0x0001#16 else 0x0000#16) s t

/-- Rule R60: RSK restores both registers from their snapshots and changes nothing else. -/
def Obligations.RestoreKeysCopiesTheSnapshots : Prop :=
  encode .rsk = 0x16#8 ++ 0#120 ∧ refusedElsewhere .rsk [.idle]
  ∧ ∀ s : State, s.mode = .idle → ∃ t, exec .rsk s = .next t ∧ t.s1 = s.s1Orig ∧ t.s2 = s.s2Orig ∧ answered 0x0000#16 s t
    ∧ unchangedExcept [.s1, .s2, .responses] s t

/-! ### The keystream generator -/

/-- Rule R62: Z is a total function of its six arguments, the same in every use, and every such function is the Z of some
configuration: it is the entry of the truth table at the number whose bits are the arguments, the first the most significant
(the layout of 93_implementation_defined.md G1). -/
def Obligations.ZIsTheFunctionOfItsTruthTable : Prop :=
  (∀ (c : Config) (i : Nat), i < 64 →
    zFun c (i.testBit 5) (i.testBit 4) (i.testBit 3) (i.testBit 2) (i.testBit 1) (i.testBit 0) = c.z.getLsbD i)
  ∧ (∀ (c d : Config), c.z = d.z → zFun c = zFun d)
  ∧ ∀ f : Bool → Bool → Bool → Bool → Bool → Bool → Bool, ∃ z : BitVec 64, ∀ c : Config, c.z = z → zFun c = f

/-- Rule R24, in the form that assumption 2 gives it: `F(n)` is bit `n` of the known bits where they reach, and the free stream
beyond them, so every finite beginning of every stream is that of some state; it does not depend on what has been consumed or
on any other field, and a round reads `F(FPOS)`, the next bit, as its `T[1]`, which with `D[9]` makes bit 3 of the new U. -/
def Obligations.FBitsAreReadInOrder : Prop :=
  (∀ (s : State) (n : Nat), s.fBit n = if h : n < s.fKnown.length then s.fKnown[n] else Config.fStream n)
  ∧ (∀ (s : State) (f : Nat → Bool) (m : Nat), ∃ t, unchangedExcept [.fKnown] s t ∧ ∀ n, n < m → t.fBit n = f n)
  ∧ (∀ (s t : State) (n : Nat), s.fKnown = t.fKnown → s.fBit n = t.fBit n)
  ∧ ∀ (s : State) (n : Nat),
      (rounds (n + 1) s).u.getLsbD 3 = (dReads (rounds n s) 9 ^^ s.fBit (s.fpos + n))

/-- Rules R64 to R69, one inner round: there is a pipeline `T[1..9]` with the equations of rule R64, every group of the new U is the
shifted old group below `DSEL(U, D[9-g]) ^ T[g+1]`, bit 35 also takes s1, both key registers are shifted, one F-bit is consumed
and nothing else changes. Every read is of the state before the round. -/
def Obligations.RoundFollowsTheWiring : Prop :=
  ∀ s : State, ∃ T : Nat → Bool,
    T 1 = s.fBit s.fpos
    ∧ T 2 = (T 1 ^^ zFun s.cfg (keyBitOf s.cfg.keybitSel s.s2) (pReads s 1) (pReads s 2) (pReads s 3) (pReads s 4) (pReads s 5))
    ∧ T 3 = (T 2 ^^ pReads s 6)
    ∧ T 4 = (T 3 ^^ zFun s.cfg (pReads s 7) (pReads s 8) (pReads s 9) (pReads s 10) (pReads s 11) (pReads s 12))
    ∧ T 5 = (T 4 ^^ pReads s 13)
    ∧ T 6 = (T 5 ^^ zFun s.cfg (pReads s 14) (pReads s 15) (pReads s 16) (pReads s 17) (pReads s 18) (pReads s 19)
        ^^ keyBitOf s.cfg.keybitSel s.s2)
    ∧ T 7 = (T 6 ^^ pReads s 20)
    ∧ T 8 = (T 7 ^^ zFun s.cfg (pReads s 21) (pReads s 22) (pReads s 23) (pReads s 24) (pReads s 25) (pReads s 26))
    ∧ T 9 = (T 8 ^^ pReads s 27)
    ∧ (∀ g i, g < 9 → i < 3 → (round s).u.getLsbD (4 * g + i) = s.u.getLsbD (4 * g + i + 1))
    ∧ (∀ g, g < 8 → (round s).u.getLsbD (4 * g + 3) = (dReads s (9 - g) ^^ T (g + 1)))
    ∧ (round s).u.getLsbD 35 = (dReads s 1 ^^ T 9 ^^ keyBitOf s.cfg.keybitSel s.s1)
    ∧ isRotation 1 s.s1 (round s).s1 ∧ isRotation 1 s.s2 (round s).s2 ∧ (round s).fpos = s.fpos + 1
    ∧ unchangedExcept [.u, .s1, .s2, .fpos] s (round s)

/-- The consequence that rules R52 and R67 draw: the key bit of round `n` is the bit of the register at ring index `n mod 120` under
`HIGH`, and at `(n - 1) mod 120` under `LOW`. -/
def Obligations.KeyBitOfRoundN : Prop :=
  ∀ (s : State) (n : Nat),
    (s.cfg.keybitSel = .high → keyBit s.cfg.keybitSel (rounds n s).s1 = s.s1.getLsbD (n % 120)
      ∧ keyBit s.cfg.keybitSel (rounds n s).s2 = s.s2.getLsbD (n % 120))
    ∧ (s.cfg.keybitSel = .low → keyBit s.cfg.keybitSel (rounds n s).s1 = s.s1.getLsbD ((n + 119) % 120)
      ∧ keyBit s.cfg.keybitSel (rounds n s).s2 = s.s2.getLsbD ((n + 119) % 120))

/-- Rules R70 to R73: DRV makes 1778 rounds, 133 more before them if the warm-up is due, answers the value whose bit `b` is the tap
after block `b` (the bit of block 13 dropped), sets WARM and moves MODE from 1 to 2, and changes nothing else. `rounds n` is `ROUND`
run `n` times. -/
def Obligations.DeriveAnswersTheTapsOfItsBlocks : Prop :=
  (∀ (n : Nat) (s : State), rounds n s = Machine.round^[n] s)
  ∧ encode .drv = 0x20#8 ++ 0#120 ∧ refusedElsewhere .drv [.keysValidated, .running]
  ∧ ∀ s : State, s.mode = .keysValidated ∨ s.mode = .running →
    ∃ (t : State) (k : KVal), exec .drv s = .next t ∧ answered (0#3 ++ k) s t
      ∧ (∀ b, b < 13 → k.getLsbD b = tapReads (rounds (warmupLeft s + 127 * (b + 1)) s))
      ∧ t.u = (rounds (warmupLeft s + 1778) s).u
      ∧ isRotation (warmupLeft s + 1778) s.s1 t.s1 ∧ isRotation (warmupLeft s + 1778) s.s2 t.s2
      ∧ t.fpos = s.fpos + (warmupLeft s + 1778) ∧ t.warm = true ∧ t.mode = .running
      ∧ unchangedExcept [.u, .s1, .s2, .fpos, .warm, .mode, .responses] s t

/-- Rule R74(a), determinism: two engines that agree on the configuration, U, S1, S2, WARM and the F-bits ahead answer a DRV alike
and still agree after it, whatever else differs between them. -/
def Obligations.DerivationDependsOnTheGeneratorAlone : Prop :=
  ∀ a b : State, sameGenerator a b → (a.mode = .keysValidated ∨ a.mode = .running) →
    (b.mode = .keysValidated ∨ b.mode = .running) →
    ∃ a' b' r, exec .drv a = .next a' ∧ exec .drv b = .next b' ∧ answered r a a' ∧ answered r b b' ∧ sameGenerator a' b'

/-! ### The character cipher -/

/-- Rule R76: `NEXT` fixes 0, is a bijection, runs the 31 nonzero values in one cycle in the order the rule lists, and the bits it
shifts in obey `a(t+5) = a(t+2) ^ a(t)`. -/
def Obligations.NextRunsThroughOneCycle : Prop :=
  lfsrNext 0#5 = 0#5
  ∧ Function.Bijective lfsrNext
  ∧ (∀ x : CharUnit, x.getLsbD 4 = ((lfsrNext x).getLsbD 0 ^^ (lfsrNext x).getLsbD 3))
  ∧ ((List.range 31).map fun t => nextTimes t 0x1F#5) =
      [0x1F#5, 0x1E, 0x1C, 0x18, 0x11, 0x03, 0x06, 0x0D, 0x1B, 0x17, 0x0E, 0x1D, 0x1A, 0x15, 0x0A, 0x14,
       0x08, 0x10, 0x01, 0x02, 0x04, 0x09, 0x12, 0x05, 0x0B, 0x16, 0x0C, 0x19, 0x13, 0x07, 0x0F]
  ∧ nextTimes 31 0x1F#5 = 0x1F#5
  ∧ (∀ x : CharUnit, x ≠ 0#5 → ∃ t, t < 31 ∧ nextTimes t 0x1F#5 = x)
  ∧ ∀ (x : CharUnit) (t : Nat), (nextTimes (t + 6) x).getLsbD 0 =
      ((nextTimes (t + 3) x).getLsbD 0 ^^ (nextTimes (t + 1) x).getLsbD 0)

/-- Rules R75, R77 and R78: `NEXT` in bits; `LOOP` is the while-loop (the test before each shift), ends on all ones or on 0 from 0,
makes the number of shifts of the table, at most 30, and is for every first argument a bijection of the second that fixes 0. -/
def Obligations.LoopIsTheWhileLoopOfTheTable : Prop :=
  ∀ a b : CharUnit,
    lfsrLoop a b = (if a = 0b11111#5 ∨ a = 0#5 then (a, b) else lfsrLoop (lfsrNext a) (lfsrNext b))
    ∧ (lfsrLoop a b).1 = (if a = 0#5 then 0#5 else 0b11111#5)
    ∧ (lfsrLoop a b).2 = nextTimes (shiftCount a) b
    ∧ shiftCount a ≤ 30
    ∧ (lfsrLoop a 0#5).2 = 0#5
    ∧ Function.Bijective (fun c => (lfsrLoop a c).2)
    ∧ lfsrNext a = ((a <<< 1 ||| ((a >>> 4 ^^^ a >>> 2) &&& 1#5)) &&& 0b11111#5)
    ∧ ∀ i : Fin 5, (lfsrNext a).getLsbD i = nextBits a i

/-- Rule R84 on the pure transforms: `DEC5(k, ENC5(k, p)) = p` and `ENC5(k, DEC5(k, c)) = c`. -/
def Obligations.TransformsAreMutualInverses : Prop :=
  ∀ (k : KVal) (x : CharUnit), dec5 k (enc5 k x) = x ∧ enc5 k (dec5 k x) = x

/-- Rule R82: ENC makes the derivation that DRV would make and answers `ENC5(k, CH)` in the closed form of rule R80; apart from the
response it leaves what DRV leaves. A set bit of `CW[119:5]` is answered `0x4000`, with no effect. -/
def Obligations.EncryptAnswersUnderAFreshValue : Prop :=
  (∀ (s : State) (w : CommandWord) (rest : List CommandWord), s.port = w :: rest → w.extractLsb' 120 8 = 0x21#8 →
      w.extractLsb' 5 115 ≠ 0#115 → ∃ t, step s = .next t ∧ answered 0x4000#16 s t ∧ unchangedExcept [.port, .responses] s t)
  ∧ ∀ ch : CharUnit, encode (.enc ch) = 0x21#8 ++ 0#115 ++ ch ∧ refusedElsewhere (.enc ch) [.keysValidated, .running]
  ∧ ∀ s : State, s.mode = .keysValidated ∨ s.mode = .running →
    ∃ (t d : State) (k : KVal), exec (.enc ch) s = .next t ∧ exec .drv s = .next d ∧ answered (0#3 ++ k) s d
      ∧ answered (0#11 ++ enc5Closed k ch) s t ∧ unchangedExcept [.responses] d t

/-- Rule R83: DEC makes the derivation that DRV would make and answers `DEC5(k, CH)` in the closed form of rule R81; apart from the
response it leaves what DRV leaves. A set bit of `CW[119:5]` is answered `0x4000`, with no effect. -/
def Obligations.DecryptAnswersUnderAFreshValue : Prop :=
  (∀ (s : State) (w : CommandWord) (rest : List CommandWord), s.port = w :: rest → w.extractLsb' 120 8 = 0x22#8 →
      w.extractLsb' 5 115 ≠ 0#115 → ∃ t, step s = .next t ∧ answered 0x4000#16 s t ∧ unchangedExcept [.port, .responses] s t)
  ∧ ∀ ch : CharUnit, encode (.dec ch) = 0x22#8 ++ 0#115 ++ ch ∧ refusedElsewhere (.dec ch) [.keysValidated, .running]
  ∧ ∀ s : State, s.mode = .keysValidated ∨ s.mode = .running →
    ∃ (t d : State) (k : KVal), exec (.dec ch) s = .next t ∧ exec .drv s = .next d ∧ answered (0#3 ++ k) s d
      ∧ answered (0#11 ++ dec5Closed k ch) s t ∧ unchangedExcept [.responses] d t

/-- Rule R84 on the commands, the round-trip law: of two engines in step, one that encrypts a message of any length and one that
decrypts the responses of the first, the second answers the message, and they are in step after it. -/
def Obligations.DecryptingTheResponsesGivesTheMessage : Prop :=
  ∀ (msg : List CharUnit) (a b : State), sameGenerator a b → (a.mode = .keysValidated ∨ a.mode = .running) →
    (b.mode = .keysValidated ∨ b.mode = .running) → a.port = msg.map (fun p => encode (.enc p)) →
    ∃ (cipher : List CharUnit) (a' : State), run msg.length a = .next a' ∧ cipher.length = msg.length
      ∧ a'.responses = a.responses ++ cipher.map (fun c => 0#11 ++ c)
      ∧ (b.port = cipher.map (fun c => encode (.dec c)) →
          ∃ b', run msg.length b = .next b' ∧ b'.responses = b.responses ++ msg.map (fun p => 0#11 ++ p) ∧ sameGenerator a' b')

/-! ### The controller -/

/-- Rule R89 (with R88): RST restores, clears WARM and ERR and returns MODE to `IDLE` from every mode; LD1, LD2, the snapshots and
the F stream are kept. -/
def Obligations.MachineResetRestoresAndGoesIdle : Prop :=
  encode .rst = 0x01#8 ++ 0#120
  ∧ ∀ s : State, ∃ t, exec .rst s = .next t ∧ t.s1 = s.s1Orig ∧ t.s2 = s.s2Orig ∧ t.u = s.cfg.uInit ∧ t.warm = false
    ∧ t.mode = .idle ∧ t.err = .none ∧ answered 0x0000#16 s t
    ∧ unchangedExcept [.s1, .s2, .u, .warm, .mode, .err, .responses] s t

/-- Rule R90: START restores, then validates: a missing key first, then the parity of the restored registers; the response is 1 for
validated and 0 for aborted. -/
def Obligations.StartValidatesOrAborts : Prop :=
  encode .start = 0x02#8 ++ 0#120 ∧ refusedElsewhere .start [.idle]
  ∧ ∀ s : State, s.mode = .idle → ∃ t, exec .start s = .next t ∧ t.s1 = s.s1Orig ∧ t.s2 = s.s2Orig ∧ t.u = s.cfg.uInit
    ∧ t.warm = false ∧ unchangedExcept [.s1, .s2, .u, .warm, .mode, .err, .responses] s t
    ∧ ((s.ld1 = false ∨ s.ld2 = false) → t.mode = .aborted ∧ t.err = .keyMissing ∧ answered 0x0000#16 s t)
    ∧ (s.ld1 = true ∧ s.ld2 = true → ¬ (oddOnes s.s1Orig ∧ oddOnes s.s2Orig) →
        t.mode = .aborted ∧ t.err = .keyParity ∧ answered 0x0000#16 s t)
    ∧ (s.ld1 = true ∧ s.ld2 = true → oddOnes s.s1Orig ∧ oddOnes s.s2Orig →
        t.mode = .keysValidated ∧ t.err = s.err ∧ answered 0x0001#16 s t)

/-- Rule R92: STOP ends the run; nothing but MODE is written. -/
def Obligations.StopFinishesTheRun : Prop :=
  encode .stop = 0x03#8 ++ 0#120 ∧ refusedElsewhere .stop [.keysValidated, .running]
  ∧ ∀ s : State, s.mode = .keysValidated ∨ s.mode = .running → ∃ t, exec .stop s = .next t ∧ t.mode = .finished
    ∧ answered 0x0000#16 s t ∧ unchangedExcept [.mode, .responses] s t

/-- Rule R93: ABT aborts before the run with `ERR_SYNC`; nothing but MODE and ERR is written. -/
def Obligations.AbortBeforeTheRunReportsSync : Prop :=
  encode .abt = 0x04#8 ++ 0#120 ∧ refusedElsewhere .abt [.idle, .keysValidated]
  ∧ ∀ s : State, s.mode = .idle ∨ s.mode = .keysValidated → ∃ t, exec .abt s = .next t ∧ t.mode = .aborted ∧ t.err = .sync
    ∧ answered 0x0000#16 s t ∧ unchangedExcept [.mode, .err, .responses] s t

/-- Rule R88: "RST then START restores twice, which is the same as once": in `IDLE` with no error, RST and START leave what START
alone leaves, but for the one response more. -/
def Obligations.ResetThenStartIsStart : Prop :=
  ∀ s : State, s.mode = .idle → s.err = .none →
    ∃ r a b, exec .rst s = .next r ∧ exec .start r = .next a ∧ exec .start s = .next b ∧ unchangedExcept [.responses] b a

/-! ### Whole-machine rules -/

/-- Rule R101: from `RUNNING`, no sequence of words without RST raises an error or aborts; and in no mode does a command raise one
but START in `IDLE` and ABT before the run. -/
def Obligations.NoErrorOnceRunning : Prop :=
  (∀ (n : Nat) (s : State), s.mode = .running → s.err = .none → noReset s →
    ∃ t, run n s = .next t ∧ t.err = .none ∧ (t.mode = .running ∨ t.mode = .finished))
  ∧ ∀ (i : Instr) (s t : State), exec i s = .next t → s.err = .none → t.err ≠ .none →
      (i = .start ∧ s.mode = .idle) ∨ (i = .abt ∧ (s.mode = .idle ∨ s.mode = .keysValidated))

/-- Rule R104: the only way out of `ABORTED` and `FINISHED` is RST, which clears ERR and returns to `IDLE`; without it no word changes
anything but the two ports. -/
def Obligations.TerminalStatesHoldUntilReset : Prop :=
  (∀ (n : Nat) (s : State), s.mode = .aborted ∨ s.mode = .finished → noReset s →
    ∃ t, run n s = .next t ∧ unchangedExcept [.port, .responses] s t)
  ∧ ∀ s : State, s.mode = .aborted ∨ s.mode = .finished →
      ∃ t, exec .rst s = .next t ∧ t.mode = .idle ∧ t.err = .none

/-- Rules R29(b), R29(d) and R124: from the start of a run, through any words but RST, the key registers stand rotated from their
snapshots by the number of F-bits consumed since, which is 0 while WARM is 0 and 133 + 1778 per character once it is 1. -/
def Obligations.KeysAreRotatedByTheRoundsOfTheRun : Prop :=
  ∀ (n : Nat) (s : State), s.mode = .keysValidated → s.warm = false → s.s1 = s.s1Orig → s.s2 = s.s2Orig → noReset s →
    ∃ t c, run n s = .next t ∧ t.fpos = s.fpos + (if c = 0 then 0 else 133 + 1778 * c) ∧ (t.warm = true ↔ c ≠ 0)
      ∧ t.s1Orig = s.s1Orig ∧ t.s2Orig = s.s2Orig
      ∧ isRotation ((t.fpos - s.fpos) % 120) t.s1Orig t.s1 ∧ isRotation ((t.fpos - s.fpos) % 120) t.s2Orig t.s2

/-- Rule R112: a machine reset wipes out the past. Two engines with the same configuration, the same loaded keys and the same F-bits
ahead, whatever run each is in or has aborted, answer RST and every word after it alike. -/
def Obligations.ResetMakesTheRunRepeatable : Prop :=
  ∀ (ws : List CommandWord) (a b : State), a.cfg = b.cfg → a.s1Orig = b.s1Orig → a.s2Orig = b.s2Orig → a.ld1 = b.ld1 →
    a.ld2 = b.ld2 → (∀ n, a.fBit (a.fpos + n) = b.fBit (b.fpos + n)) → a.port = encode .rst :: ws → b.port = encode .rst :: ws →
    ∀ n, n ≤ ws.length → ∃ a' b' rs, run (n + 1) a = .next a' ∧ run (n + 1) b = .next b'
      ∧ a'.responses = a.responses ++ rs ∧ b'.responses = b.responses ++ rs ∧ rs.length = n + 1
      ∧ sameGenerator a' b' ∧ a'.status = b'.status

/-- The invariant of rules R29, R85 and R97 holds at reset. -/
def Obligations.InvariantHoldsAtReset : Prop := State.reset.Inv

/-- The invariant of rules R29, R85 and R97 is kept by every step, from every state that meets it, and every step answers. -/
def Obligations.EveryStepKeepsTheInvariant : Prop :=
  ∀ s : State, s.Inv → ∃ t, step s = .next t ∧ t.Inv

/-! ### Reset, status, configuration, assembler -/

/-- Rule R110: the state after power-on, under any configuration: MODE `IDLE`, ERR 0, the flags 0, U at `U_INIT`, the key registers
and snapshots 0, no F-bit consumed, and STATUS 0. The empty ports are the model's (assumptions 3 and 4). -/
def Obligations.PowerOnLeavesTheEngineEmpty : Prop :=
  (∀ (c : Config) (known : List Bool), (State.powerOn c known).mode = .idle ∧ (State.powerOn c known).err = .none
    ∧ (State.powerOn c known).warm = false ∧ (State.powerOn c known).ld1 = false ∧ (State.powerOn c known).ld2 = false
    ∧ (State.powerOn c known).u = c.uInit ∧ (State.powerOn c known).s1 = 0#120 ∧ (State.powerOn c known).s2 = 0#120
    ∧ (State.powerOn c known).s1Orig = 0#120 ∧ (State.powerOn c known).s2Orig = 0#120 ∧ (State.powerOn c known).cfg = c
    ∧ (State.powerOn c known).fpos = 0 ∧ (State.powerOn c known).status = 0#9 ∧ ¬ oddOnes (State.powerOn c known).s1
    ∧ (State.powerOn c known).port = [] ∧ (State.powerOn c known).responses = [])
  ∧ State.reset = State.powerOn Config.installed []

/-- Rule R25: the bits of the status port, with the codes of rules R19 and R20. -/
def Obligations.StatusPortShowsModeErrorAndFlags : Prop :=
  ∀ s : State,
    s.status.extractLsb' 6 3 = (match s.mode with
      | .idle => 0#3 | .keysValidated => 1#3 | .running => 2#3 | .finished => 3#3 | .aborted => 4#3)
    ∧ s.status.extractLsb' 3 3 = (match s.err with
      | .none => 0#3 | .keyMissing => 1#3 | .keyLength => 2#3 | .keyParity => 3#3 | .sync => 4#3)
    ∧ s.status.getLsbD 2 = s.warm ∧ s.status.getLsbD 1 = s.ld2 ∧ s.status.getLsbD 0 = s.ld1

/-- Rule R23: a profile and its bit-vector form determine each other, field `e` at `[6e+5:6e]`: fields 0 to 26 are `P[1..27]`, 27 to 35
`D[1..9]` with 63 for `NONE`, 36 is ALPHA; and a vector with a field out of range (36 to 62 anywhere, 63 in a P or ALPHA field) is
refused. -/
def Obligations.ProfileVectorIsReadBack : Prop :=
  (∀ l : Profile, profileOfCfg (cfgOfProfile l) = some l)
  ∧ (∀ (v : BitVec 222) (l : Profile), profileOfCfg v = some l → cfgOfProfile l = v
      ∧ (∀ (i : Nat) (hi : i < 27), (l.p[i]).val = (v.extractLsb' (6 * i) 6).toNat)
      ∧ (∀ (i : Nat) (hi : i < 9), match l.d[i] with
          | some u => u.val = (v.extractLsb' (6 * (27 + i)) 6).toNat
          | none => v.extractLsb' (6 * (27 + i)) 6 = 63#6)
      ∧ l.alpha.val = (v.extractLsb' (6 * 36) 6).toNat)
  ∧ ∀ v : BitVec 222, profileOfCfg v = none ↔
      ∃ e, e < 37 ∧ 36 ≤ (v.extractLsb' (6 * e) 6).toNat
        ∧ (v.extractLsb' (6 * e) 6 = 63#6 → e < 27 ∨ e = 36)

/-- How the model refuses a configuration. Rule R23 refuses `LTK_ID` 11 to 15 and a profile in use that is out of range; that every
entry of the catalogue is asked, also one that `LTK_ID` does not select, and that the degree of Z never is, is the model's choice
(assumption 9, DESIGN CHOICE). A configuration that is not refused is the one the inputs give, and the catalogue entry that
`LTK_ID` names is the profile in use (rules R22, R23, R31). -/
def Obligations.ConfigurationOutOfRangeIsRefused : Prop :=
  ∀ (sel : BitVec 1) (id : BitVec 4) (rom : Vector (BitVec 222) 11) (z : BitVec 64) (uInit : UReg),
    (configure sel id rom z uInit = none ↔ 11 ≤ id.toNat ∨ ∃ j : Fin 11, profileOfCfg rom[j] = none)
    ∧ ∀ c, configure sel id rom z uInit = some c →
        c.ltkId.val = id.toNat ∧ (c.keybitSel = .high ↔ sel = 0#1) ∧ c.z = z ∧ c.uInit = uInit
        ∧ (∀ j : Fin 11, profileOfCfg rom[j] = some c.ltkRom[j])
        ∧ ∀ known, profileOfCfg rom[c.ltkId] = some (profileInUse (State.powerOn c known))

/-- Rules R41, R42, R47 and R48 (with R97), for the lines as they are after reading. A plain line is the command of format N that it
names and no other; a key line is LDK1 or LDK2 with the key operand of exactly 15 bytes, byte `b[i]` at `KEYOP[8i+7:8i]`; a unit
line is ENC or DEC of a unit 0 to 31; the pseudo-commands expand as rule R48 says, with register number 1 or 2; any other line
gives no word; and the words of a line decode, in order, to its commands. That ENCS and DECS with no unit at all are ill-formed is
the model's choice (assumption 10, DESIGN CHOICE). -/
def Obligations.AssembledLinesDecodeToTheirCommands : Prop :=
  (∀ l : Line, (assembleLine l = none ↔ l.wellFormed = false) ∧ (expandLine l = none ↔ l.wellFormed = false))
  ∧ (∀ (l : Line) (ws : List CommandWord), assembleLine l = some ws →
      ∃ is, expandLine l = some is ∧ ws.map decode = is.map .ok)
  ∧ (∀ row ∈ [(Mnemonic.rst, Instr.rst), (.start, .start), (.stop, .stop), (.abt, .abt), (.chk, .chk), (.shk1, .shk1),
        (.shk2, .shk2), (.kb1, .kb1), (.kb2, .kb2), (.rsk, .rsk), (.drv, .drv)],
      expandLine (.plain row.1) = some [row.2] ∧ (∀ bytes, expandLine (.key row.1 bytes) = none)
        ∧ ∀ u, expandLine (.unit row.1 u) = none)
  ∧ (∀ row ∈ [(Mnemonic.ldk1, Instr.ldk1), (.ldk2, .ldk2)],
      expandLine (.plain row.1) = none ∧ (∀ u, expandLine (.unit row.1 u) = none)
        ∧ ∀ bytes : List Byte,
          expandLine (.key row.1 bytes) = if bytes.length = 15 then some [row.2 (keyopOfBytes bytes)] else none)
  ∧ (∀ row ∈ [(Mnemonic.enc, Instr.enc), (.dec, .dec)],
      expandLine (.plain row.1) = none ∧ (∀ bytes, expandLine (.key row.1 bytes) = none)
        ∧ ∀ u : Nat, expandLine (.unit row.1 u) = if u < 32 then some [row.2 (BitVec.ofNat 5 u)] else none)
  ∧ (∀ (bytes : List Byte) (i : Nat) (hi : i < bytes.length), bytes.length = 15 →
      (keyopOfBytes bytes).extractLsb' (8 * i) 8 = bytes[i])
  ∧ (∀ (n : Nat) (bytes : List Byte), expandLine (.ldk n bytes) =
      if n = 1 then expandLine (.key .ldk1 bytes) else if n = 2 then expandLine (.key .ldk2 bytes) else none)
  ∧ (∀ n : Nat, expandLine (.shk n) = if n = 1 then some [.shk1] else if n = 2 then some [.shk2] else none)
  ∧ (∀ n : Nat, expandLine (.kb n) = if n = 1 then some [.kb1] else if n = 2 then some [.kb2] else none)
  ∧ (∀ b1 b2 : List Byte, expandLine (.keys b1 b2) =
      if b1.length = 15 ∧ b2.length = 15 then some [.ldk1 (keyopOfBytes b1), .ldk2 (keyopOfBytes b2)] else none)
  ∧ (∀ us : List Nat,
      expandLine (.encs us) = (if us ≠ [] ∧ ∀ u ∈ us, u < 32 then some (us.map fun u => .enc (BitVec.ofNat 5 u)) else none)
      ∧ expandLine (.decs us) =
        (if us ≠ [] ∧ ∀ u ∈ us, u < 32 then some (us.map fun u => .dec (BitVec.ofNat 5 u)) else none))
  ∧ expandLine .run = some [.rst, .start]
end

