-- ==== Sys2Proof/Laws/Cipher.lean ====
section
/-!
SUPPORT. Laws/Cipher.lean: the cipher's functions on 5-bit values. The facts over the 32 values of a unit are decided; the closed
forms of rules R80 and R81 follow from them.
-/

namespace Sys2Proof.Machine

/-- The bits of `NEXT` (rule R75). -/
theorem getLsbD_lfsrNext (x : CharUnit) (i : Fin 5) : (lfsrNext x).getLsbD i = nextBits x i := by
  revert x i; decide

/-- `LOOP` is `NEXT` made `n(a)` times on its second argument (rule R78). -/
theorem lfsrLoop_snd (a b : CharUnit) : (lfsrLoop a b).2 = nextTimes (shiftCount a) b := by
  revert a b; decide +kernel

/-- `LOOP` ends on all ones, or on 0 from 0 (rule R77). -/
theorem lfsrLoop_fst (a b : CharUnit) : (lfsrLoop a b).1 = if a = 0#5 then 0#5 else 0x1F#5 := by
  revert a b; decide +kernel

/-- The loop unrolled once: the test stands before the shift (rule R77). -/
theorem lfsrLoop_unroll (a b : CharUnit) :
    lfsrLoop a b = if a = 0x1F#5 ∨ a = 0#5 then (a, b) else lfsrLoop (lfsrNext a) (lfsrNext b) := by
  revert a b; decide +kernel

theorem enc5_closed (k : KVal) (p : CharUnit) : enc5 k p = enc5Closed k p := by
  simp only [enc5, enc5Closed, kLo, kHi, lfsrLoop_snd]

theorem dec5_closed (k : KVal) (c : CharUnit) : dec5 k c = dec5Closed k c := by
  simp only [dec5, dec5Closed, kLo, kHi, lfsrLoop_snd]

/-- The two loops of an encryption undo the one loop of a decryption, and the other way round (rule R84), on the field `KLO`. -/
theorem loops_cancel (a x : CharUnit) :
    nextTimes (shiftCount a) (nextTimes (shiftCount (nextTimes (shiftCount a) 0x1F#5)) x) = x
      ∧ nextTimes (shiftCount (nextTimes (shiftCount a) 0x1F#5)) (nextTimes (shiftCount a) x) = x := by
  revert a x; decide +kernel

end Sys2Proof.Machine
end

