-- ==== Sys2Proof/Laws/Configure.lean ====
section
/-!
SUPPORT. Laws/Configure.lean: the fields of the bit-vector form of a profile (10_state.md rule R23), said one by one, so that no
later proof evaluates a vector of 222 bits.
-/

namespace Sys2Proof.Machine

/-! ### Packing -/

/-- Field `e` of packed fields. -/
theorem packFields_field (fs : List (BitVec 6)) (e : Nat) (he : e < fs.length) :
    packFields fs / 64 ^ e % 64 = fs[e].toNat := by
  induction fs generalizing e with
  | nil => simp at he
  | cons f fs ih =>
    have hf := f.isLt
    cases e with
    | zero => simp only [packFields, Nat.pow_zero, Nat.div_one, List.getElem_cons_zero]; omega
    | succ e =>
      simp only [packFields, List.getElem_cons_succ, ← ih e (by simpa using he)]
      rw [Nat.pow_succ, Nat.mul_comm (64 ^ e) 64, ← Nat.div_div_eq_div_mul]
      congr 2; omega

theorem packFields_lt (fs : List (BitVec 6)) : packFields fs < 64 ^ fs.length := by
  induction fs with
  | nil => simp [packFields]
  | cons f fs ih => simp only [packFields, List.length_cons, Nat.pow_succ]; have := f.isLt; omega

@[simp] theorem length_profileFields (l : Profile) : (profileFields l).length = 37 := by simp [profileFields]

/-- Field `e` of the vector of a profile. -/
theorem cfgField_cfgOfProfile (l : Profile) (e : Nat) (he : e < 37) :
    cfgField (cfgOfProfile l) e = (profileFields l)[e]'(by simpa using he) := by
  have hl : packFields (profileFields l) < 2 ^ 222 := by
    have := packFields_lt (profileFields l)
    rw [length_profileFields] at this
    exact lt_of_lt_of_eq this (by norm_num)
  apply BitVec.eq_of_toNat_eq
  rw [cfgField, BitVec.extractLsb'_toNat, cfgOfProfile, BitVec.toNat_ofNat, Nat.mod_eq_of_lt hl, Nat.shiftRight_eq_div_pow,
    ← packFields_field, Nat.pow_mul]

/-- Fields 0 to 26 are `P[1..27]`. -/
theorem profileFields_p (l : Profile) (i : Nat) (hi : i < 27) :
    (profileFields l)[i]'(by rw [length_profileFields]; omega) = positionCode l.p[i] := by
  simp [profileFields, hi]

/-- Fields 27 to 35 are `D[1..9]`. -/
theorem profileFields_d (l : Profile) (i : Nat) (hi : i < 9) :
    (profileFields l)[27 + i]'(by rw [length_profileFields]; omega) = entryCode l.d[i] := by
  simp [profileFields, hi]

/-- Field 36 is `ALPHA`. -/
theorem profileFields_alpha (l : Profile) :
    (profileFields l)[36]'(by rw [length_profileFields]; omega) = positionCode l.alpha := by
  simp [profileFields]

/-- Two vectors with the same fields are the same. -/
theorem cfg_ext {v w : BitVec 222} (h : ∀ e, e < 37 → cfgField v e = cfgField w e) : v = w := by
  apply BitVec.eq_of_getLsbD_eq
  intro i hi
  have := congrArg (fun f => f.getLsbD (i % 6)) (h (i / 6) (by omega))
  simp only [cfgField, BitVec.getLsbD_extractLsb', show i % 6 < 6 by omega, decide_true, Bool.true_and,
    show 6 * (i / 6) + i % 6 = i by omega] at this
  exact this

/-! ### One field -/

theorem fieldPosition_positionCode (i : UPos) : fieldPosition (positionCode i) = i := by revert i; decide

theorem fieldEntry_entryCode (d : Option UPos) : fieldEntry (entryCode d) = d := by revert d; decide

theorem positionCode_fieldPosition (f : BitVec 6) : positionField f = true → positionCode (fieldPosition f) = f := by
  revert f; decide

theorem entryCode_fieldEntry (f : BitVec 6) : positionOrNoneField f = true → entryCode (fieldEntry f) = f := by
  revert f; decide

theorem positionField_positionCode (i : UPos) : positionField (positionCode i) = true := by revert i; decide

theorem positionOrNoneField_entryCode (d : Option UPos) : positionOrNoneField (entryCode d) = true := by revert d; decide

/-! ### A whole vector -/

/-- The check of a vector, field by field. -/
theorem cfgAllowed_iff (v : BitVec 222) :
    cfgAllowed v = true ↔ (∀ e, e < 27 → positionField (cfgField v e) = true)
      ∧ (∀ e, e < 9 → positionOrNoneField (cfgField v (27 + e)) = true) ∧ positionField (cfgField v 36) = true := by
  simp only [cfgAllowed, Bool.and_eq_true, List.all_eq_true, List.mem_range, and_assoc]

/-- What a vector that is read gives. -/
theorem profileOfCfg_eq_some {v : BitVec 222} {l : Profile} (h : profileOfCfg v = some l) :
    cfgAllowed v = true ∧ (∀ i (hi : i < 27), l.p[i] = fieldPosition (cfgField v i))
      ∧ (∀ i (hi : i < 9), l.d[i] = fieldEntry (cfgField v (27 + i))) ∧ l.alpha = fieldPosition (cfgField v 36) := by
  unfold profileOfCfg at h
  split at h
  · rename_i ha
    have h := Option.some.inj h
    rw [← h]
    refine ⟨ha, fun i hi => ?_, fun i hi => ?_, rfl⟩ <;> simp only [Vector.getElem_ofFn]
  · cases h

theorem profileOfCfg_eq_none {v : BitVec 222} : profileOfCfg v = none ↔ cfgAllowed v = false := by
  unfold profileOfCfg
  cases cfgAllowed v <;> simp

end Sys2Proof.Machine
end

