-- ==== Sys2Proof/Laws/Decode.lean ====
section
/-!
SUPPORT. Laws/Decode.lean: the fields of an encoded command and the opcode map.
-/

namespace Sys2Proof

theorem opcField_append (o : BitVec 8) (d : BitVec 120) : opcField (o ++ d : CommandWord) = o := by
  apply BitVec.eq_of_getLsbD_eq
  intro i hi
  unfold opcField
  rw [BitVec.getLsbD_extractLsb', decide_eq_true hi, Bool.true_and]
  change BitVec.getLsbD (w := 8 + 120) (o ++ d) (120 + i) = _
  rw [BitVec.getLsbD_append, if_neg (by omega)]
  congr 1; omega

theorem opdField_append (o : BitVec 8) (d : BitVec 120) : opdField (o ++ d : CommandWord) = d := by
  apply BitVec.eq_of_getLsbD_eq
  intro i hi
  unfold opdField
  rw [BitVec.getLsbD_extractLsb', decide_eq_true hi, Bool.true_and, Nat.zero_add]
  change BitVec.getLsbD (w := 8 + 120) (o ++ d) i = _
  rw [BitVec.getLsbD_append, if_pos hi]

/-- A word is its two fields. -/
theorem append_fields (w : CommandWord) : opcField w ++ opdField w = w := by
  apply BitVec.eq_of_getLsbD_eq
  intro i hi
  rw [BitVec.getLsbD_append]
  split_ifs with h
  · rw [opdField, BitVec.getLsbD_extractLsb', decide_eq_true h, Bool.true_and, Nat.zero_add]
  · rw [opcField, BitVec.getLsbD_extractLsb']
    rw [decide_eq_true (by omega), Bool.true_and]
    congr 1; omega

/-- The opcode map is read back (rule R43). -/
theorem ofOpcode_opcode (m : Mnemonic) : Mnemonic.ofOpcode m.opcode = some m := by cases m <;> decide

theorem ofOpcode_eq_some {o : BitVec 8} {m : Mnemonic} : Mnemonic.ofOpcode o = some m ↔ o = m.opcode := by
  constructor
  · intro h
    have := List.find?_some h
    exact (beq_iff_eq.1 this).symm
  · rintro rfl; exact ofOpcode_opcode m

/-! ### The unit of format C -/

/-- A unit, as an operand field, sets no reserved bit and is read back (rules R41 and R42). -/
theorem unit_reserved (ch : CharUnit) : (ch.setWidth 120).extractLsb' 5 115 = 0#115 := by
  apply BitVec.eq_of_getLsbD_eq
  intro i hi
  simp

theorem unit_readBack (ch : CharUnit) : (ch.setWidth 120).extractLsb' 0 5 = ch := by
  apply BitVec.eq_of_getLsbD_eq
  intro i hi
  rw [BitVec.getLsbD_extractLsb', decide_eq_true hi, Bool.true_and, Nat.zero_add, BitVec.getLsbD_setWidth,
    decide_eq_true (by omega), Bool.true_and]

/-- An operand field with no reserved bit set is its unit. -/
theorem operand_of_unit {d : BitVec 120} (h : d.extractLsb' 5 115 = 0#115) : (d.extractLsb' 0 5).setWidth 120 = d := by
  apply BitVec.eq_of_getLsbD_eq
  intro i hi
  rw [BitVec.getLsbD_setWidth, BitVec.getLsbD_extractLsb', decide_eq_true hi, Bool.true_and, Nat.zero_add]
  by_cases h5 : i < 5
  · rw [decide_eq_true h5, Bool.true_and]
  · have := congrArg (fun v => v.getLsbD (i - 5)) h
    simp only [BitVec.getLsbD_extractLsb', BitVec.getLsbD_zero] at this
    rw [decide_eq_true (by omega), Bool.true_and, show 5 + (i - 5) = i by omega] at this
    rw [this, Bool.and_false]

/-! ### The decoder, said once -/

theorem mnemonic_build (m : Mnemonic) (d : BitVec 120) : (m.build d).mnemonic = m := by cases m <;> rfl

/-- A word decodes to a command exactly when its opcode is a row's and the row's reserved bits are 0 (rules R41 to R44). -/
theorem decode_ok_iff {w : CommandWord} {i : Instr} :
    decode w = .ok i ↔ ∃ m : Mnemonic, opcField w = m.opcode ∧ m.format.reservedZero (opdField w) = true
      ∧ i = m.build (opdField w) := by
  unfold decode
  constructor
  · intro h
    split at h
    · cases h
    · rename_i m hm
      split at h
      · rename_i hr; exact ⟨m, ofOpcode_eq_some.1 hm, hr, (Except.ok.inj h).symm⟩
      · cases h
  · rintro ⟨m, ho, hr, rfl⟩
    rw [ho, ofOpcode_opcode]
    exact if_pos hr

/-- A word is illegal exactly when it decodes to no command. -/
theorem decode_error_iff {w : CommandWord} : (∃ e, decode w = .error e) ↔ ∀ i, decode w ≠ .ok i := by
  cases h : decode w with
  | error e => exact ⟨fun _ _ hc => (by cases hc), fun _ => ⟨e, rfl⟩⟩
  | ok i => exact ⟨fun ⟨_, he⟩ => (by cases he), fun hn => absurd rfl (hn i)⟩

end Sys2Proof
end

