-- ==== Sys2Proof/Laws/KeyRing.lean ====
section
/-!
SUPPORT. Laws/KeyRing.lean: the key store's functions bit by bit: parity as a count of ones, `RINGSHIFT` as a rotation, the words
of a load, `KEYBIT`.
-/

namespace Sys2Proof.Machine

/-! ### Parity -/

theorem xorBits_count (bit : Nat → Bool) (n : Nat) :
    xorBits bit n = ((List.range n).countP bit % 2 == 1) := by
  induction n with
  | zero => simp [xorBits]
  | succ n ih =>
    rw [xorBits, ih, List.range_succ, List.countP_append]
    rcases Nat.mod_two_eq_zero_or_one ((List.range n).countP bit) with e | e <;>
      cases h : bit n <;> simp [h, Nat.add_mod, e]

/-- `PAR(r)` is 1 exactly when the number of one bits is odd (rule R50). -/
theorem par_eq (r : KeyRing) : par r = oddOnes r := xorBits_count _ 120

theorem xorBits_congr {f g : Nat → Bool} {n : Nat} (h : ∀ i, i < n → f i = g i) : xorBits f n = xorBits g n := by
  induction n with
  | zero => rfl
  | succ n ih => rw [xorBits, xorBits, ih fun i hi => h i (by omega), h n (by omega)]

/-- The first bit of a stream may be taken out of the XOR. -/
theorem xorBits_first (f : Nat → Bool) (n : Nat) : xorBits f (n + 1) = (f 0 ^^ xorBits (fun i => f (i + 1)) n) := by
  induction n with
  | zero => simp [xorBits]
  | succ n ih => rw [xorBits, ih]; simp [xorBits]

/-! ### RINGSHIFT -/

/-- `r'[i] = r[i+1]`, and `r'[119] = r[0]` (rule R51). -/
theorem getLsbD_ringShift (r : KeyRing) (i : Nat) (hi : i < 120) :
    (ringShift r).getLsbD i = r.getLsbD ((i + 1) % 120) := by
  unfold ringShift
  by_cases h : i = 119
  · subst h; simp
  · have h1 : i < 119 := by omega
    rw [Nat.mod_eq_of_lt (by omega : i + 1 < 120)]
    simp [h1, hi, Nat.add_comm]

theorem isRotation_zero (r : KeyRing) : isRotation 0 r r := fun i hi => by simp [Nat.mod_eq_of_lt hi]

theorem isRotation_ringShift {n : Nat} {o r : KeyRing} (h : isRotation n o r) : isRotation (n + 1) o (ringShift r) := by
  intro i hi
  rw [getLsbD_ringShift r i hi, h _ (Nat.mod_lt _ (by omega))]
  congr 1
  omega

theorem isRotation_trans {m n : Nat} {o r q : KeyRing} (h : isRotation m o r) (h' : isRotation n r q) :
    isRotation (m + n) o q := by
  intro i hi
  rw [h' i hi, h _ (Nat.mod_lt _ (by omega))]
  congr 1
  omega

theorem isRotation_unique {n : Nat} {o r q : KeyRing} (h : isRotation n o r) (h' : isRotation n o q) : r = q :=
  BitVec.eq_of_getLsbD_eq fun i hi => by rw [h i hi, h' i hi]

/-- The parity is unchanged by a shift (rule R51). -/
theorem par_ringShift (r : KeyRing) : par (ringShift r) = par r := by
  have h1 : par (ringShift r) = xorBits (fun i => r.getLsbD ((i + 1) % 120)) 120 :=
    xorBits_congr fun i hi => getLsbD_ringShift r i hi
  have h2 : xorBits (fun i => r.getLsbD ((i + 1) % 120)) 119 = xorBits (fun i => r.getLsbD (i + 1)) 119 :=
    xorBits_congr fun i hi => by rw [Nat.mod_eq_of_lt (by omega)]
  rw [h1, par, xorBits_first r.getLsbD 119, xorBits, h2, Bool.xor_comm]

@[simp] theorem oddOnes_ringShift (r : KeyRing) : oddOnes (ringShift r) = oddOnes r := by
  rw [← par_eq, ← par_eq, par_ringShift]

/-! ### The load -/

/-- `W(S,j)[i] = Ring(S)[24*(4-j) + i]` (rule R11). -/
theorem getLsbD_keyWord (r : KeyRing) (j i : Nat) (hi : i < 24) :
    (keyWord r j).getLsbD i = r.getLsbD (24 * (4 - j) + i) := by
  simp [keyWord, hi]

/-- The ring value of a load, bit by bit: the words in the opposite order, each word's bits in place (rule R33). -/
theorem getLsbD_ringOfKeyop (k : KeyRing) (i : Nat) (hi : i < 120) :
    (ringOfKeyop k).getLsbD i = k.getLsbD (24 * (4 - i / 24) + i % 24) := by
  unfold ringOfKeyop
  change BitVec.getLsbD (w := 24 + 24 + 24 + 24 + 24) (k.extractLsb' 0 24 ++ k.extractLsb' 24 24 ++ k.extractLsb' 48 24
    ++ k.extractLsb' 72 24 ++ k.extractLsb' 96 24) i = _
  have hd : i / 24 < 5 := by omega
  simp only [BitVec.getLsbD_append, BitVec.getLsbD_extractLsb']
  have e : i = 24 * (i / 24) + i % 24 := by omega
  have hm : i % 24 < 24 := Nat.mod_lt _ (by omega)
  generalize i / 24 = q at *
  generalize i % 24 = m at *
  subst e
  interval_cases q <;> split_ifs <;>
    first
    | omega
    | (rw [decide_eq_true (by omega), Bool.true_and]; congr 1; omega)

/-- Word `j` of a loaded register is `KEYOP[24j+23:24j]` (rule R33). -/
theorem keyWord_ringOfKeyop (k : KeyRing) (j : Nat) (hj : j < 5) :
    keyWord (ringOfKeyop k) j = k.extractLsb' (24 * j) 24 := by
  apply BitVec.eq_of_getLsbD_eq
  intro i hi
  rw [getLsbD_keyWord _ _ _ hi, BitVec.getLsbD_extractLsb', getLsbD_ringOfKeyop _ _ (by omega)]
  simp only [hi, decide_true, Bool.true_and]
  congr 1
  omega

/-- Byte `b[i]` of a key buffer is `KEYOP[8i+7:8i]` (rule R42). -/
theorem testBit_keyopNat (bytes : List Byte) (i b : Nat) (hb : b < 8) (hi : i < bytes.length) :
    (keyopNat bytes).testBit (8 * i + b) = bytes[i].getLsbD b := by
  induction bytes generalizing i with
  | nil => simp at hi
  | cons x xs ih =>
    have hx := x.isLt
    cases i with
    | zero =>
      simp only [keyopNat, List.getElem_cons_zero, Nat.mul_zero, Nat.zero_add]
      have h := Nat.testBit_mod_two_pow (x.toNat + 256 * keyopNat xs) 8 b
      rw [show (x.toNat + 256 * keyopNat xs) % 2 ^ 8 = x.toNat by omega, decide_eq_true hb, Bool.true_and] at h
      exact h.symm
    | succ i =>
      simp only [keyopNat, List.getElem_cons_succ]
      have h := Nat.testBit_div_two_pow (n := 8) (x.toNat + 256 * keyopNat xs) (8 * i + b)
      rw [show (x.toNat + 256 * keyopNat xs) / 2 ^ 8 = keyopNat xs by omega, ih i (by simpa using hi)] at h
      rw [show 8 * (i + 1) + b = 8 * i + b + 8 by omega, ← h]

/-! ### KEYBIT -/

theorem keyBit_eq (sel : KeyBitSel) (r : KeyRing) : keyBit sel r = keyBitOf sel r := by
  cases sel <;> rfl

/-! ### Responses -/

theorem respWord_bool (b : Bool) : respWord .ok (boolData b) = if b then 1#16 else 0#16 := by
  cases b <;> decide

@[simp] theorem respWord_ok_zero : respWord .ok 0#13 = 0#16 := by decide
@[simp] theorem respWord_illegal_zero : respWord .illegal 0#13 = 0x4000#16 := by decide
@[simp] theorem respWord_badMode_zero : respWord .badMode 0#13 = 0x8000#16 := by decide

theorem respWord_ok (d : KVal) : respWord .ok d = 0#3 ++ d := by
  apply BitVec.eq_of_getLsbD_eq
  intro i hi
  simp [respWord, RespStatus.code]

end Sys2Proof.Machine
end

