-- ==== Sys2Proof/Laws/State.lean ====
section
/-!
SUPPORT. Laws/State.lean: for each shared operation on the state, the value of every field after it. All hold by `rfl`; the other
proofs cite them and unfold no record update.
-/

namespace Sys2Proof.Machine

/-! ### respond -/

@[simp] theorem respond_s1 (st : RespStatus) (dout : KVal) (s : State) : (respond st dout s).s1 = s.s1 := rfl
@[simp] theorem respond_s2 (st : RespStatus) (dout : KVal) (s : State) : (respond st dout s).s2 = s.s2 := rfl
@[simp] theorem respond_s1Orig (st : RespStatus) (dout : KVal) (s : State) : (respond st dout s).s1Orig = s.s1Orig := rfl
@[simp] theorem respond_s2Orig (st : RespStatus) (dout : KVal) (s : State) : (respond st dout s).s2Orig = s.s2Orig := rfl
@[simp] theorem respond_ld1 (st : RespStatus) (dout : KVal) (s : State) : (respond st dout s).ld1 = s.ld1 := rfl
@[simp] theorem respond_ld2 (st : RespStatus) (dout : KVal) (s : State) : (respond st dout s).ld2 = s.ld2 := rfl
@[simp] theorem respond_u (st : RespStatus) (dout : KVal) (s : State) : (respond st dout s).u = s.u := rfl
@[simp] theorem respond_warm (st : RespStatus) (dout : KVal) (s : State) : (respond st dout s).warm = s.warm := rfl
@[simp] theorem respond_mode (st : RespStatus) (dout : KVal) (s : State) : (respond st dout s).mode = s.mode := rfl
@[simp] theorem respond_err (st : RespStatus) (dout : KVal) (s : State) : (respond st dout s).err = s.err := rfl
@[simp] theorem respond_cfg (st : RespStatus) (dout : KVal) (s : State) : (respond st dout s).cfg = s.cfg := rfl
@[simp] theorem respond_fpos (st : RespStatus) (dout : KVal) (s : State) : (respond st dout s).fpos = s.fpos := rfl
@[simp] theorem respond_fKnown (st : RespStatus) (dout : KVal) (s : State) : (respond st dout s).fKnown = s.fKnown := rfl
@[simp] theorem respond_port (st : RespStatus) (dout : KVal) (s : State) : (respond st dout s).port = s.port := rfl
@[simp] theorem respond_responses (st : RespStatus) (dout : KVal) (s : State) : (respond st dout s).responses = s.responses ++ [respWord st dout] := rfl

/-! ### refuse -/

@[simp] theorem refuse_s1 (st : RespStatus) (s : State) : (refuse st s).s1 = s.s1 := rfl
@[simp] theorem refuse_s2 (st : RespStatus) (s : State) : (refuse st s).s2 = s.s2 := rfl
@[simp] theorem refuse_s1Orig (st : RespStatus) (s : State) : (refuse st s).s1Orig = s.s1Orig := rfl
@[simp] theorem refuse_s2Orig (st : RespStatus) (s : State) : (refuse st s).s2Orig = s.s2Orig := rfl
@[simp] theorem refuse_ld1 (st : RespStatus) (s : State) : (refuse st s).ld1 = s.ld1 := rfl
@[simp] theorem refuse_ld2 (st : RespStatus) (s : State) : (refuse st s).ld2 = s.ld2 := rfl
@[simp] theorem refuse_u (st : RespStatus) (s : State) : (refuse st s).u = s.u := rfl
@[simp] theorem refuse_warm (st : RespStatus) (s : State) : (refuse st s).warm = s.warm := rfl
@[simp] theorem refuse_mode (st : RespStatus) (s : State) : (refuse st s).mode = s.mode := rfl
@[simp] theorem refuse_err (st : RespStatus) (s : State) : (refuse st s).err = s.err := rfl
@[simp] theorem refuse_cfg (st : RespStatus) (s : State) : (refuse st s).cfg = s.cfg := rfl
@[simp] theorem refuse_fpos (st : RespStatus) (s : State) : (refuse st s).fpos = s.fpos := rfl
@[simp] theorem refuse_fKnown (st : RespStatus) (s : State) : (refuse st s).fKnown = s.fKnown := rfl
@[simp] theorem refuse_port (st : RespStatus) (s : State) : (refuse st s).port = s.port := rfl
@[simp] theorem refuse_responses (st : RespStatus) (s : State) : (refuse st s).responses = s.responses ++ [respWord st 0#13] := rfl

/-! ### refuseIllegal -/

@[simp] theorem refuseIllegal_s1 (s : State) : (refuseIllegal s).s1 = s.s1 := rfl
@[simp] theorem refuseIllegal_s2 (s : State) : (refuseIllegal s).s2 = s.s2 := rfl
@[simp] theorem refuseIllegal_s1Orig (s : State) : (refuseIllegal s).s1Orig = s.s1Orig := rfl
@[simp] theorem refuseIllegal_s2Orig (s : State) : (refuseIllegal s).s2Orig = s.s2Orig := rfl
@[simp] theorem refuseIllegal_ld1 (s : State) : (refuseIllegal s).ld1 = s.ld1 := rfl
@[simp] theorem refuseIllegal_ld2 (s : State) : (refuseIllegal s).ld2 = s.ld2 := rfl
@[simp] theorem refuseIllegal_u (s : State) : (refuseIllegal s).u = s.u := rfl
@[simp] theorem refuseIllegal_warm (s : State) : (refuseIllegal s).warm = s.warm := rfl
@[simp] theorem refuseIllegal_mode (s : State) : (refuseIllegal s).mode = s.mode := rfl
@[simp] theorem refuseIllegal_err (s : State) : (refuseIllegal s).err = s.err := rfl
@[simp] theorem refuseIllegal_cfg (s : State) : (refuseIllegal s).cfg = s.cfg := rfl
@[simp] theorem refuseIllegal_fpos (s : State) : (refuseIllegal s).fpos = s.fpos := rfl
@[simp] theorem refuseIllegal_fKnown (s : State) : (refuseIllegal s).fKnown = s.fKnown := rfl
@[simp] theorem refuseIllegal_port (s : State) : (refuseIllegal s).port = s.port := rfl
@[simp] theorem refuseIllegal_responses (s : State) : (refuseIllegal s).responses = s.responses ++ [respWord .illegal 0#13] := rfl

/-! ### restore -/

@[simp] theorem restore_s1 (s : State) : (restore s).s1 = s.s1Orig := rfl
@[simp] theorem restore_s2 (s : State) : (restore s).s2 = s.s2Orig := rfl
@[simp] theorem restore_s1Orig (s : State) : (restore s).s1Orig = s.s1Orig := rfl
@[simp] theorem restore_s2Orig (s : State) : (restore s).s2Orig = s.s2Orig := rfl
@[simp] theorem restore_ld1 (s : State) : (restore s).ld1 = s.ld1 := rfl
@[simp] theorem restore_ld2 (s : State) : (restore s).ld2 = s.ld2 := rfl
@[simp] theorem restore_u (s : State) : (restore s).u = s.cfg.uInit := rfl
@[simp] theorem restore_warm (s : State) : (restore s).warm = false := rfl
@[simp] theorem restore_mode (s : State) : (restore s).mode = s.mode := rfl
@[simp] theorem restore_err (s : State) : (restore s).err = s.err := rfl
@[simp] theorem restore_cfg (s : State) : (restore s).cfg = s.cfg := rfl
@[simp] theorem restore_fpos (s : State) : (restore s).fpos = s.fpos := rfl
@[simp] theorem restore_fKnown (s : State) : (restore s).fKnown = s.fKnown := rfl
@[simp] theorem restore_port (s : State) : (restore s).port = s.port := rfl
@[simp] theorem restore_responses (s : State) : (restore s).responses = s.responses := rfl

/-! ### abortEntry -/

@[simp] theorem abortEntry_s1 (code : Err) (s : State) : (abortEntry code s).s1 = s.s1 := rfl
@[simp] theorem abortEntry_s2 (code : Err) (s : State) : (abortEntry code s).s2 = s.s2 := rfl
@[simp] theorem abortEntry_s1Orig (code : Err) (s : State) : (abortEntry code s).s1Orig = s.s1Orig := rfl
@[simp] theorem abortEntry_s2Orig (code : Err) (s : State) : (abortEntry code s).s2Orig = s.s2Orig := rfl
@[simp] theorem abortEntry_ld1 (code : Err) (s : State) : (abortEntry code s).ld1 = s.ld1 := rfl
@[simp] theorem abortEntry_ld2 (code : Err) (s : State) : (abortEntry code s).ld2 = s.ld2 := rfl
@[simp] theorem abortEntry_u (code : Err) (s : State) : (abortEntry code s).u = s.u := rfl
@[simp] theorem abortEntry_warm (code : Err) (s : State) : (abortEntry code s).warm = s.warm := rfl
@[simp] theorem abortEntry_mode (code : Err) (s : State) : (abortEntry code s).mode = Mode.aborted := rfl
@[simp] theorem abortEntry_err (code : Err) (s : State) : (abortEntry code s).err = code := rfl
@[simp] theorem abortEntry_cfg (code : Err) (s : State) : (abortEntry code s).cfg = s.cfg := rfl
@[simp] theorem abortEntry_fpos (code : Err) (s : State) : (abortEntry code s).fpos = s.fpos := rfl
@[simp] theorem abortEntry_fKnown (code : Err) (s : State) : (abortEntry code s).fKnown = s.fKnown := rfl
@[simp] theorem abortEntry_port (code : Err) (s : State) : (abortEntry code s).port = s.port := rfl
@[simp] theorem abortEntry_responses (code : Err) (s : State) : (abortEntry code s).responses = s.responses := rfl

/-! ### machineReset -/

@[simp] theorem machineReset_s1 (s : State) : (machineReset s).s1 = s.s1Orig := rfl
@[simp] theorem machineReset_s2 (s : State) : (machineReset s).s2 = s.s2Orig := rfl
@[simp] theorem machineReset_s1Orig (s : State) : (machineReset s).s1Orig = s.s1Orig := rfl
@[simp] theorem machineReset_s2Orig (s : State) : (machineReset s).s2Orig = s.s2Orig := rfl
@[simp] theorem machineReset_ld1 (s : State) : (machineReset s).ld1 = s.ld1 := rfl
@[simp] theorem machineReset_ld2 (s : State) : (machineReset s).ld2 = s.ld2 := rfl
@[simp] theorem machineReset_u (s : State) : (machineReset s).u = s.cfg.uInit := rfl
@[simp] theorem machineReset_warm (s : State) : (machineReset s).warm = false := rfl
@[simp] theorem machineReset_mode (s : State) : (machineReset s).mode = Mode.idle := rfl
@[simp] theorem machineReset_err (s : State) : (machineReset s).err = Err.none := rfl
@[simp] theorem machineReset_cfg (s : State) : (machineReset s).cfg = s.cfg := rfl
@[simp] theorem machineReset_fpos (s : State) : (machineReset s).fpos = s.fpos := rfl
@[simp] theorem machineReset_fKnown (s : State) : (machineReset s).fKnown = s.fKnown := rfl
@[simp] theorem machineReset_port (s : State) : (machineReset s).port = s.port := rfl
@[simp] theorem machineReset_responses (s : State) : (machineReset s).responses = s.responses := rfl

/-! ### takeWord -/

@[simp] theorem takeWord_s1 (s : State) : (takeWord s).s1 = s.s1 := rfl
@[simp] theorem takeWord_s2 (s : State) : (takeWord s).s2 = s.s2 := rfl
@[simp] theorem takeWord_s1Orig (s : State) : (takeWord s).s1Orig = s.s1Orig := rfl
@[simp] theorem takeWord_s2Orig (s : State) : (takeWord s).s2Orig = s.s2Orig := rfl
@[simp] theorem takeWord_ld1 (s : State) : (takeWord s).ld1 = s.ld1 := rfl
@[simp] theorem takeWord_ld2 (s : State) : (takeWord s).ld2 = s.ld2 := rfl
@[simp] theorem takeWord_u (s : State) : (takeWord s).u = s.u := rfl
@[simp] theorem takeWord_warm (s : State) : (takeWord s).warm = s.warm := rfl
@[simp] theorem takeWord_mode (s : State) : (takeWord s).mode = s.mode := rfl
@[simp] theorem takeWord_err (s : State) : (takeWord s).err = s.err := rfl
@[simp] theorem takeWord_cfg (s : State) : (takeWord s).cfg = s.cfg := rfl
@[simp] theorem takeWord_fpos (s : State) : (takeWord s).fpos = s.fpos := rfl
@[simp] theorem takeWord_fKnown (s : State) : (takeWord s).fKnown = s.fKnown := rfl
@[simp] theorem takeWord_port (s : State) : (takeWord s).port = s.port.tail := rfl
@[simp] theorem takeWord_responses (s : State) : (takeWord s).responses = s.responses := rfl

/-! ### present -/

@[simp] theorem present_s1 (w : CommandWord) (s : State) : (present w s).s1 = s.s1 := rfl
@[simp] theorem present_s2 (w : CommandWord) (s : State) : (present w s).s2 = s.s2 := rfl
@[simp] theorem present_s1Orig (w : CommandWord) (s : State) : (present w s).s1Orig = s.s1Orig := rfl
@[simp] theorem present_s2Orig (w : CommandWord) (s : State) : (present w s).s2Orig = s.s2Orig := rfl
@[simp] theorem present_ld1 (w : CommandWord) (s : State) : (present w s).ld1 = s.ld1 := rfl
@[simp] theorem present_ld2 (w : CommandWord) (s : State) : (present w s).ld2 = s.ld2 := rfl
@[simp] theorem present_u (w : CommandWord) (s : State) : (present w s).u = s.u := rfl
@[simp] theorem present_warm (w : CommandWord) (s : State) : (present w s).warm = s.warm := rfl
@[simp] theorem present_mode (w : CommandWord) (s : State) : (present w s).mode = s.mode := rfl
@[simp] theorem present_err (w : CommandWord) (s : State) : (present w s).err = s.err := rfl
@[simp] theorem present_cfg (w : CommandWord) (s : State) : (present w s).cfg = s.cfg := rfl
@[simp] theorem present_fpos (w : CommandWord) (s : State) : (present w s).fpos = s.fpos := rfl
@[simp] theorem present_fKnown (w : CommandWord) (s : State) : (present w s).fKnown = s.fKnown := rfl
@[simp] theorem present_port (w : CommandWord) (s : State) : (present w s).port = s.port ++ [w] := rfl
@[simp] theorem present_responses (w : CommandWord) (s : State) : (present w s).responses = s.responses := rfl

/-! ### presentFirst -/

@[simp] theorem presentFirst_s1 (w : CommandWord) (s : State) : (presentFirst w s).s1 = s.s1 := rfl
@[simp] theorem presentFirst_s2 (w : CommandWord) (s : State) : (presentFirst w s).s2 = s.s2 := rfl
@[simp] theorem presentFirst_s1Orig (w : CommandWord) (s : State) : (presentFirst w s).s1Orig = s.s1Orig := rfl
@[simp] theorem presentFirst_s2Orig (w : CommandWord) (s : State) : (presentFirst w s).s2Orig = s.s2Orig := rfl
@[simp] theorem presentFirst_ld1 (w : CommandWord) (s : State) : (presentFirst w s).ld1 = s.ld1 := rfl
@[simp] theorem presentFirst_ld2 (w : CommandWord) (s : State) : (presentFirst w s).ld2 = s.ld2 := rfl
@[simp] theorem presentFirst_u (w : CommandWord) (s : State) : (presentFirst w s).u = s.u := rfl
@[simp] theorem presentFirst_warm (w : CommandWord) (s : State) : (presentFirst w s).warm = s.warm := rfl
@[simp] theorem presentFirst_mode (w : CommandWord) (s : State) : (presentFirst w s).mode = s.mode := rfl
@[simp] theorem presentFirst_err (w : CommandWord) (s : State) : (presentFirst w s).err = s.err := rfl
@[simp] theorem presentFirst_cfg (w : CommandWord) (s : State) : (presentFirst w s).cfg = s.cfg := rfl
@[simp] theorem presentFirst_fpos (w : CommandWord) (s : State) : (presentFirst w s).fpos = s.fpos := rfl
@[simp] theorem presentFirst_fKnown (w : CommandWord) (s : State) : (presentFirst w s).fKnown = s.fKnown := rfl
@[simp] theorem presentFirst_port (w : CommandWord) (s : State) : (presentFirst w s).port = w :: s.port := rfl
@[simp] theorem presentFirst_responses (w : CommandWord) (s : State) : (presentFirst w s).responses = s.responses := rfl

/-! ### round -/

@[simp] theorem round_s1 (s : State) : (round s).s1 = ringShift s.s1 := rfl
@[simp] theorem round_s2 (s : State) : (round s).s2 = ringShift s.s2 := rfl
@[simp] theorem round_s1Orig (s : State) : (round s).s1Orig = s.s1Orig := rfl
@[simp] theorem round_s2Orig (s : State) : (round s).s2Orig = s.s2Orig := rfl
@[simp] theorem round_ld1 (s : State) : (round s).ld1 = s.ld1 := rfl
@[simp] theorem round_ld2 (s : State) : (round s).ld2 = s.ld2 := rfl
@[simp] theorem round_u (s : State) : (round s).u = nextU s.cfg s.u (keyBit s.cfg.keybitSel s.s1) (keyBit s.cfg.keybitSel s.s2) (s.fBit s.fpos) := rfl
@[simp] theorem round_warm (s : State) : (round s).warm = s.warm := rfl
@[simp] theorem round_mode (s : State) : (round s).mode = s.mode := rfl
@[simp] theorem round_err (s : State) : (round s).err = s.err := rfl
@[simp] theorem round_cfg (s : State) : (round s).cfg = s.cfg := rfl
@[simp] theorem round_fpos (s : State) : (round s).fpos = s.fpos + 1 := rfl
@[simp] theorem round_fKnown (s : State) : (round s).fKnown = s.fKnown := rfl
@[simp] theorem round_port (s : State) : (round s).port = s.port := rfl
@[simp] theorem round_responses (s : State) : (round s).responses = s.responses := rfl

/-! ### The F stream -/

theorem fBit_of_same {s t : State} (h : t.fKnown = s.fKnown) (n : Nat) : t.fBit n = s.fBit n := by
  simp [State.fBit, h]

@[simp] theorem respond_fBit (st : RespStatus) (dout : KVal) (s : State) (n : Nat) : (respond st dout s).fBit n = s.fBit n := rfl
@[simp] theorem refuse_fBit (st : RespStatus) (s : State) (n : Nat) : (refuse st s).fBit n = s.fBit n := rfl
@[simp] theorem refuseIllegal_fBit (s : State) (n : Nat) : (refuseIllegal s).fBit n = s.fBit n := rfl
@[simp] theorem restore_fBit (s : State) (n : Nat) : (restore s).fBit n = s.fBit n := rfl
@[simp] theorem abortEntry_fBit (code : Err) (s : State) (n : Nat) : (abortEntry code s).fBit n = s.fBit n := rfl
@[simp] theorem machineReset_fBit (s : State) (n : Nat) : (machineReset s).fBit n = s.fBit n := rfl
@[simp] theorem takeWord_fBit (s : State) (n : Nat) : (takeWord s).fBit n = s.fBit n := rfl
@[simp] theorem present_fBit (w : CommandWord) (s : State) (n : Nat) : (present w s).fBit n = s.fBit n := rfl
@[simp] theorem presentFirst_fBit (w : CommandWord) (s : State) (n : Nat) : (presentFirst w s).fBit n = s.fBit n := rfl
@[simp] theorem round_fBit (s : State) (n : Nat) : (round s).fBit n = s.fBit n := rfl

/-! ### The first character -/

@[simp] theorem firstCharacter_s1 (s : State) : (firstCharacter s).s1 = s.s1 := by
  unfold firstCharacter; split <;> rfl
@[simp] theorem firstCharacter_s2 (s : State) : (firstCharacter s).s2 = s.s2 := by
  unfold firstCharacter; split <;> rfl
@[simp] theorem firstCharacter_s1Orig (s : State) : (firstCharacter s).s1Orig = s.s1Orig := by
  unfold firstCharacter; split <;> rfl
@[simp] theorem firstCharacter_s2Orig (s : State) : (firstCharacter s).s2Orig = s.s2Orig := by
  unfold firstCharacter; split <;> rfl
@[simp] theorem firstCharacter_ld1 (s : State) : (firstCharacter s).ld1 = s.ld1 := by
  unfold firstCharacter; split <;> rfl
@[simp] theorem firstCharacter_ld2 (s : State) : (firstCharacter s).ld2 = s.ld2 := by
  unfold firstCharacter; split <;> rfl
@[simp] theorem firstCharacter_u (s : State) : (firstCharacter s).u = s.u := by
  unfold firstCharacter; split <;> rfl
@[simp] theorem firstCharacter_warm (s : State) : (firstCharacter s).warm = s.warm := by
  unfold firstCharacter; split <;> rfl
@[simp] theorem firstCharacter_err (s : State) : (firstCharacter s).err = s.err := by
  unfold firstCharacter; split <;> rfl
@[simp] theorem firstCharacter_cfg (s : State) : (firstCharacter s).cfg = s.cfg := by
  unfold firstCharacter; split <;> rfl
@[simp] theorem firstCharacter_fpos (s : State) : (firstCharacter s).fpos = s.fpos := by
  unfold firstCharacter; split <;> rfl
@[simp] theorem firstCharacter_fKnown (s : State) : (firstCharacter s).fKnown = s.fKnown := by
  unfold firstCharacter; split <;> rfl
@[simp] theorem firstCharacter_port (s : State) : (firstCharacter s).port = s.port := by
  unfold firstCharacter; split <;> rfl
@[simp] theorem firstCharacter_responses (s : State) : (firstCharacter s).responses = s.responses := by
  unfold firstCharacter; split <;> rfl

/-- The transition of rule R91 as one equation. -/
theorem firstCharacter_mode (s : State) :
    (firstCharacter s).mode = if s.mode = .keysValidated then .running else s.mode := by
  unfold firstCharacter; split <;> simp_all

/-! ### Frames -/

/-- A frame, field by field: `simp` closes a frame on a known state with this. -/
theorem unchangedExcept_iff (fs : List Field) (s t : State) :
    unchangedExcept fs s t ↔
      (Field.s1 ∉ fs → t.s1 = s.s1) ∧
      (Field.s2 ∉ fs → t.s2 = s.s2) ∧
      (Field.s1Orig ∉ fs → t.s1Orig = s.s1Orig) ∧
      (Field.s2Orig ∉ fs → t.s2Orig = s.s2Orig) ∧
      (Field.ld1 ∉ fs → t.ld1 = s.ld1) ∧
      (Field.ld2 ∉ fs → t.ld2 = s.ld2) ∧
      (Field.u ∉ fs → t.u = s.u) ∧
      (Field.warm ∉ fs → t.warm = s.warm) ∧
      (Field.mode ∉ fs → t.mode = s.mode) ∧
      (Field.err ∉ fs → t.err = s.err) ∧
      (Field.cfg ∉ fs → t.cfg = s.cfg) ∧
      (Field.fpos ∉ fs → t.fpos = s.fpos) ∧
      (Field.fKnown ∉ fs → t.fKnown = s.fKnown) ∧
      (Field.port ∉ fs → t.port = s.port) ∧
      (Field.responses ∉ fs → t.responses = s.responses) := by
  constructor
  · intro h
    exact ⟨h .s1,
      h .s2,
      h .s1Orig,
      h .s2Orig,
      h .ld1,
      h .ld2,
      h .u,
      h .warm,
      h .mode,
      h .err,
      h .cfg,
      h .fpos,
      h .fKnown,
      h .port,
      h .responses⟩
  · rintro ⟨h1, h2, h3, h4, h5, h6, h7, h8, h9, h10, h11, h12, h13, h14, h15⟩ f
    cases f <;> assumption

/-- A frame may be widened. -/
theorem unchangedExcept_mono {fs gs : List Field} {s t : State} (h : unchangedExcept fs s t) (hs : ∀ f ∈ fs, f ∈ gs) :
    unchangedExcept gs s t := fun f hf => h f fun hm => hf (hs f hm)

theorem unchangedExcept_refl (fs : List Field) (s : State) : unchangedExcept fs s s := by
  simp [unchangedExcept_iff]

theorem unchangedExcept_trans {fs : List Field} {s t q : State} (h : unchangedExcept fs s t) (h' : unchangedExcept fs t q) :
    unchangedExcept fs s q := by
  simp only [unchangedExcept_iff] at *
  refine ⟨?_, ?_, ?_, ?_, ?_, ?_, ?_, ?_, ?_, ?_, ?_, ?_, ?_, ?_, ?_⟩ <;> intro hf <;> simp_all

/-- A refusal changes the response port alone. -/
theorem refuse_frame (st : RespStatus) (s : State) : unchangedExcept [.responses] s (refuse st s) := by
  simp [unchangedExcept_iff]

end Sys2Proof.Machine
end

