-- ==== Sys2Proof/Laws/Rounds.lean ====
section
/-!
SUPPORT. Laws/Rounds.lean: what a number of rounds, the warm-up, a block and a derivation do. A derivation is a fixed number of
rounds and bits taken between them: everything else about it follows from what rounds do.
-/

namespace Sys2Proof.Machine

/-! ### Rounds -/

@[simp] theorem rounds_zero (s : State) : rounds 0 s = s := rfl

theorem rounds_succ (n : Nat) (s : State) : rounds (n + 1) s = rounds n (round s) := rfl

/-- The last round may be taken off instead of the first. -/
theorem rounds_succ_last (n : Nat) (s : State) : rounds (n + 1) s = round (rounds n s) := by
  induction n generalizing s with
  | zero => rfl
  | succ n ih => rw [rounds_succ, ih, rounds_succ]

theorem rounds_add (m n : Nat) (s : State) : rounds (m + n) s = rounds n (rounds m s) := by
  induction n with
  | zero => rfl
  | succ n ih => rw [← Nat.add_assoc, rounds_succ_last, rounds_succ_last, ih]

/-- `rounds` is the iterate of `round`. -/
theorem rounds_eq_iterate (n : Nat) : rounds n = round^[n] := by
  induction n with
  | zero => rfl
  | succ n ih => funext s; rw [rounds_succ, ih, Function.iterate_succ_apply]

/-- What rounds leave unchanged: all but U, the key registers and FPOS (rule R28). -/
structure RoundFrame (s t : State) : Prop where
  s1Orig : t.s1Orig = s.s1Orig
  s2Orig : t.s2Orig = s.s2Orig
  ld1 : t.ld1 = s.ld1
  ld2 : t.ld2 = s.ld2
  warm : t.warm = s.warm
  mode : t.mode = s.mode
  err : t.err = s.err
  cfg : t.cfg = s.cfg
  fKnown : t.fKnown = s.fKnown
  port : t.port = s.port
  responses : t.responses = s.responses

theorem rounds_frame (n : Nat) (s : State) : RoundFrame s (rounds n s) := by
  induction n with
  | zero => constructor <;> rfl
  | succ n ih =>
    rw [rounds_succ_last]
    exact ⟨ih.1, ih.2, ih.3, ih.4, ih.5, ih.6, ih.7, ih.8, ih.9, ih.10, ih.11⟩

@[simp] theorem rounds_s1Orig (n : Nat) (s : State) : (rounds n s).s1Orig = s.s1Orig := (rounds_frame n s).1
@[simp] theorem rounds_s2Orig (n : Nat) (s : State) : (rounds n s).s2Orig = s.s2Orig := (rounds_frame n s).2
@[simp] theorem rounds_ld1 (n : Nat) (s : State) : (rounds n s).ld1 = s.ld1 := (rounds_frame n s).3
@[simp] theorem rounds_ld2 (n : Nat) (s : State) : (rounds n s).ld2 = s.ld2 := (rounds_frame n s).4
@[simp] theorem rounds_warm (n : Nat) (s : State) : (rounds n s).warm = s.warm := (rounds_frame n s).5
@[simp] theorem rounds_mode (n : Nat) (s : State) : (rounds n s).mode = s.mode := (rounds_frame n s).6
@[simp] theorem rounds_err (n : Nat) (s : State) : (rounds n s).err = s.err := (rounds_frame n s).7
@[simp] theorem rounds_cfg (n : Nat) (s : State) : (rounds n s).cfg = s.cfg := (rounds_frame n s).8
@[simp] theorem rounds_fKnown (n : Nat) (s : State) : (rounds n s).fKnown = s.fKnown := (rounds_frame n s).9
@[simp] theorem rounds_port (n : Nat) (s : State) : (rounds n s).port = s.port := (rounds_frame n s).10
@[simp] theorem rounds_responses (n : Nat) (s : State) : (rounds n s).responses = s.responses := (rounds_frame n s).11
@[simp] theorem rounds_fBit (n : Nat) (s : State) (m : Nat) : (rounds n s).fBit m = s.fBit m :=
  fBit_of_same (rounds_fKnown n s) m

/-- Each round consumes one F-bit (rule R68). -/
@[simp] theorem rounds_fpos (n : Nat) (s : State) : (rounds n s).fpos = s.fpos + n := by
  induction n with
  | zero => rfl
  | succ n ih => rw [rounds_succ_last, round_fpos, ih]; omega

/-- `n` rounds rotate S1 by `n` places (rule R67). -/
theorem rounds_s1_isRotation (n : Nat) (s : State) : isRotation n s.s1 (rounds n s).s1 := by
  induction n with
  | zero => exact isRotation_zero _
  | succ n ih => rw [rounds_succ_last]; exact isRotation_ringShift ih

theorem rounds_s2_isRotation (n : Nat) (s : State) : isRotation n s.s2 (rounds n s).s2 := by
  induction n with
  | zero => exact isRotation_zero _
  | succ n ih => rw [rounds_succ_last]; exact isRotation_ringShift ih

/-- Rounds keep the parity of both registers (rule R29(a)). -/
@[simp] theorem rounds_s1_oddOnes (n : Nat) (s : State) : oddOnes (rounds n s).s1 = oddOnes s.s1 := by
  induction n with
  | zero => rfl
  | succ n ih => rw [rounds_succ_last, round_s1, oddOnes_ringShift, ih]

@[simp] theorem rounds_s2_oddOnes (n : Nat) (s : State) : oddOnes (rounds n s).s2 = oddOnes s.s2 := by
  induction n with
  | zero => rfl
  | succ n ih => rw [rounds_succ_last, round_s2, oddOnes_ringShift, ih]

/-! ### Two engines in step -/

/-- What the rounds of two engines agree on, whatever their F positions (rules R74 and R116). -/
theorem sameGenerator_round {a b : State} (h : sameGenerator a b) : sameGenerator (round a) (round b) := by
  obtain ⟨hc, hu, h1, h2, hw, hf⟩ := h
  refine ⟨hc, ?_, ?_, ?_, hw, fun n => ?_⟩
  · have h0 := hf 0
    simp only [Nat.add_zero] at h0
    simp [hc, hu, h1, h2, h0]
  · simp [h1]
  · simp [h2]
  · have := hf (1 + n)
    simpa [← Nat.add_assoc] using this

theorem sameGenerator_rounds {a b : State} (n : Nat) (h : sameGenerator a b) : sameGenerator (rounds n a) (rounds n b) := by
  induction n generalizing a b with
  | zero => exact h
  | succ n ih => exact ih (sameGenerator_round h)

/-! ### The warm-up -/

/-- The warm-up is the rounds it has left, and WARM set (rule R70). -/
theorem warmup_eq (s : State) : warmup s = { rounds (warmupLeft s) s with warm := true } := by
  unfold warmup warmupLeft
  by_cases h : s.warm = true
  · rw [if_pos h, if_pos h, rounds_zero]; cases s; simp_all
  · rw [if_neg h, if_neg h]

/-- Setting WARM commutes with rounds. -/
theorem rounds_set_warm (n : Nat) (w : Bool) (s : State) :
    rounds n { s with warm := w } = { rounds n s with warm := w } := by
  induction n with
  | zero => rfl
  | succ n ih => rw [rounds_succ_last, rounds_succ_last, ih]; rfl

theorem sameGenerator_warmup {a b : State} (h : sameGenerator a b) : sameGenerator (warmup a) (warmup b) := by
  have hw : warmupLeft a = warmupLeft b := by unfold warmupLeft; rw [h.2.2.2.2.1]
  obtain ⟨hc, hu, h1, h2, -, hf⟩ := sameGenerator_rounds (warmupLeft a) h
  rw [warmup_eq, warmup_eq, ← hw]
  exact ⟨hc, hu, h1, h2, rfl, hf⟩

/-! ### Blocks -/

/-- The state after `n` blocks is the state after `127 n` rounds (rule R71). -/
theorem blocks_state (n : Nat) (s : State) : (blocks n s).2 = rounds (127 * n) s := by
  induction n with
  | zero => rfl
  | succ n ih => rw [blocks, block, ih, Nat.mul_succ, rounds_add]

/-- The bits of K after `n` blocks: bit `b` is the tap after block `b`, for the blocks made and the bits K has (rule R71). -/
theorem blocks_bits (n : Nat) (s : State) (b : Nat) (hb : b < 13) :
    (blocks n s).1.getLsbD b = (decide (b < n) && tap (rounds (127 * (b + 1)) s)) := by
  induction n with
  | zero => simp [blocks]
  | succ n ih =>
    have hs : rounds blockLen (blocks n s).2 = rounds (127 * (n + 1)) s := by
      rw [blocks_state, Nat.mul_succ, rounds_add]
    rw [blocks, block, hs]
    by_cases hn : n < kBits
    · simp only [hn, if_true, BitVec.getLsbD_or, ih]
      by_cases hbn : b = n
      · subst hbn; simp [hb]
      · rcases Nat.lt_or_gt_of_ne hbn with h | h
        · simp [h, hb, show b < n + 1 by omega]
        · have : b - n ≠ 0 := by omega
          simp [hb, show ¬ b < n by omega, show ¬ b < n + 1 by omega, this]
    · have h13 : ¬ n < 13 := hn
      simp only [hn, if_false, ih]
      rw [decide_eq_true (by omega : b < n), decide_eq_true (by omega : b < n + 1)]

/-- `derive`, said once: the rounds it makes, WARM set, and the bits of the value (rules R70 to R72). -/
theorem derive_state (s : State) :
    (derive s).2 = { rounds (warmupLeft s + 1778) s with warm := true } := by
  have h : 127 * (roundsPerChar / blockLen) = 1778 := by decide
  unfold derive deriveFor
  rw [blocks_state, warmup_eq, rounds_set_warm, ← rounds_add, h]

theorem derive_bits (s : State) (b : Nat) (hb : b < 13) :
    (derive s).1.getLsbD b = tap (rounds (warmupLeft s + 127 * (b + 1)) s) := by
  unfold derive deriveFor
  rw [blocks_bits _ _ _ hb, warmup_eq, rounds_set_warm, ← rounds_add]
  simp only [roundsPerChar, blockLen]
  rw [decide_eq_true (by omega), Bool.true_and]
  generalize rounds (warmupLeft s + 127 * (b + 1)) s = t
  rfl

/-- The alternative count of rounds (93_implementation_defined.md I13, 90_conflicts.md C5) gives the same 13 bits: block 13 adds
none. -/
theorem deriveFor_thirteen_blocks (s : State) : (deriveFor 1651 s).1 = (derive s).1 := by
  apply BitVec.eq_of_getLsbD_eq
  intro b hb
  rw [derive_bits s b hb]
  unfold deriveFor
  rw [blocks_bits _ _ _ hb, warmup_eq, rounds_set_warm, ← rounds_add]
  simp only [blockLen]
  rw [decide_eq_true (by omega), Bool.true_and]
  generalize rounds (warmupLeft s + 127 * (b + 1)) s = t
  rfl

theorem sameGenerator_derive {a b : State} (h : sameGenerator a b) :
    (derive a).1 = (derive b).1 ∧ sameGenerator (derive a).2 (derive b).2 := by
  have hw : warmupLeft a = warmupLeft b := by unfold warmupLeft; rw [h.2.2.2.2.1]
  constructor
  · apply BitVec.eq_of_getLsbD_eq
    intro i hi
    obtain ⟨hc, hu, -⟩ := sameGenerator_rounds (warmupLeft a + 127 * (i + 1)) h
    rw [derive_bits _ _ hi, derive_bits _ _ hi, ← hw, tap, tap, hc, hu]
  · obtain ⟨hc, hu, h1, h2, -, hf⟩ := sameGenerator_rounds (warmupLeft a + 1778) h
    rw [derive_state, derive_state, ← hw]
    generalize rounds (warmupLeft a + 1778) a = a' at hc hu h1 h2 hf ⊢
    generalize rounds (warmupLeft a + 1778) b = b' at hc hu h1 h2 hf ⊢
    exact ⟨hc, hu, h1, h2, rfl, hf⟩

/-! ### The fields after a derivation -/

@[simp] theorem derive_s1Orig (s : State) : (derive s).2.s1Orig = s.s1Orig := by simp [derive_state]
@[simp] theorem derive_s2Orig (s : State) : (derive s).2.s2Orig = s.s2Orig := by simp [derive_state]
@[simp] theorem derive_ld1 (s : State) : (derive s).2.ld1 = s.ld1 := by simp [derive_state]
@[simp] theorem derive_ld2 (s : State) : (derive s).2.ld2 = s.ld2 := by simp [derive_state]
@[simp] theorem derive_warm (s : State) : (derive s).2.warm = true := by simp [derive_state]
@[simp] theorem derive_mode (s : State) : (derive s).2.mode = s.mode := by simp [derive_state]
@[simp] theorem derive_err (s : State) : (derive s).2.err = s.err := by simp [derive_state]
@[simp] theorem derive_cfg (s : State) : (derive s).2.cfg = s.cfg := by simp [derive_state]
@[simp] theorem derive_fKnown (s : State) : (derive s).2.fKnown = s.fKnown := by simp [derive_state]
@[simp] theorem derive_port (s : State) : (derive s).2.port = s.port := by simp [derive_state]
@[simp] theorem derive_responses (s : State) : (derive s).2.responses = s.responses := by simp [derive_state]
@[simp] theorem derive_fpos (s : State) : (derive s).2.fpos = s.fpos + (warmupLeft s + 1778) := by simp [derive_state]
theorem derive_u (s : State) : (derive s).2.u = (rounds (warmupLeft s + 1778) s).u := by simp [derive_state]
theorem derive_s1 (s : State) : (derive s).2.s1 = (rounds (warmupLeft s + 1778) s).s1 := by simp [derive_state]
theorem derive_s2 (s : State) : (derive s).2.s2 = (rounds (warmupLeft s + 1778) s).s2 := by simp [derive_state]

/-! ### The command port is not read -/

theorem rounds_set_port (n : Nat) (p : List CommandWord) (s : State) :
    rounds n { s with port := p } = { rounds n s with port := p } := by
  induction n generalizing s with
  | zero => rfl
  | succ n ih => exact ih (round s)

/-- A block, from the state its rounds leave. -/
theorem block_of_rounds {s t : State} (b : Nat) (k : KVal) (h : rounds blockLen s = t) :
    block b (k, s) = (if b < kBits then k ||| (BitVec.ofBool (tap t)).setWidth 13 <<< b else k, t) := by
  simp only [block, h]

theorem block_set_port (b : Nat) (k : KVal) (p : List CommandWord) (s : State) :
    block b (k, { s with port := p }) = ((block b (k, s)).1, { (block b (k, s)).2 with port := p }) := by
  obtain ⟨t, ht⟩ : ∃ t, rounds blockLen s = t := ⟨_, rfl⟩
  have h : rounds blockLen { s with port := p } = { t with port := p } := by rw [← ht]; exact rounds_set_port _ p s
  rw [block_of_rounds b k ht, block_of_rounds b k h]
  rfl

theorem blocks_set_port (n : Nat) (p : List CommandWord) (s : State) :
    blocks n { s with port := p } = ((blocks n s).1, { (blocks n s).2 with port := p }) := by
  induction n with
  | zero => rfl
  | succ n ih => simp only [blocks]; rw [ih]; exact block_set_port n _ p _

theorem warmup_set_port (p : List CommandWord) (s : State) : warmup { s with port := p } = { warmup s with port := p } := by
  unfold warmup
  by_cases h : s.warm = true
  · rw [if_pos h, if_pos h]
  · rw [if_neg h, if_neg h, rounds_set_port]

theorem derive_set_port (p : List CommandWord) (s : State) :
    derive { s with port := p } = ((derive s).1, { (derive s).2 with port := p }) := by
  unfold derive deriveFor
  generalize roundsPerChar / blockLen = n
  rw [warmup_set_port, blocks_set_port]

end Sys2Proof.Machine
end

