-- ==== Sys2Proof/Laws/Exec.lean ====
section
/-!
SUPPORT. Laws/Exec.lean: what one command and one step can do, said once. Every command answers a next state: the effect of its
rule in a mode that accepts it, the refusal `ST_BADMODE` in another. The lemmas after these cite them and unfold no meaning.
-/

namespace Sys2Proof.Machine

/-! ### The mode check -/

theorem accept_eq (legal : Bool) (body s : State) :
    accept legal body s = .next (if legal then body else refuse .badMode s) := by
  cases legal <;> rfl

theorem inRun_iff (m : Mode) : m.inRun = true ↔ m = .keysValidated ∨ m = .running := by
  cases m <;> decide

theorem beforeRun_iff (m : Mode) : m.beforeRun = true ↔ m = .idle ∨ m = .keysValidated := by
  cases m <;> decide

/-! ### The effect of a command -/

/-- Whether the command is accepted in the mode (rule R87), as the meanings test it. -/
def acceptedIn (i : Instr) (m : Mode) : Bool :=
  match i with
  | .rst => true
  | .start => m == .idle
  | .stop => m.inRun
  | .abt => m.beforeRun
  | .chk => true
  | .ldk1 _ => m == .idle
  | .ldk2 _ => m == .idle
  | .shk1 => m == .idle
  | .shk2 => m == .idle
  | .kb1 => true
  | .kb2 => true
  | .rsk => m == .idle
  | .drv => m.inRun
  | .enc _ => m.inRun
  | .dec _ => m.inRun

/-- The state after an accepted command. -/
def effect (i : Instr) (s : State) : State :=
  match i with
  | .rst => respond .ok 0#13 (machineReset s)
  | .start => validateKeys (restore s)
  | .stop => respond .ok 0#13 { s with mode := .finished }
  | .abt => respond .ok 0#13 (abortEntry .sync s)
  | .chk => respond .ok (boolData (par s.s1 && par s.s2)) s
  | .ldk1 k => respond .ok (boolData (par (ringOfKeyop k)))
      { s with s1 := ringOfKeyop k, s1Orig := ringOfKeyop k, ld1 := true }
  | .ldk2 k => respond .ok (boolData (par (ringOfKeyop k)))
      { s with s2 := ringOfKeyop k, s2Orig := ringOfKeyop k, ld2 := true }
  | .shk1 => respond .ok 0#13 { s with s1 := ringShift s.s1 }
  | .shk2 => respond .ok 0#13 { s with s2 := ringShift s.s2 }
  | .kb1 => respond .ok (boolData (keyBit s.cfg.keybitSel s.s1)) s
  | .kb2 => respond .ok (boolData (keyBit s.cfg.keybitSel s.s2)) s
  | .rsk => respond .ok 0#13 { s with s1 := s.s1Orig, s2 := s.s2Orig }
  | .drv => finishCharacter (derive s).1 (derive s).2
  | .enc ch => finishCharacter (unitData (enc5 (derive s).1 ch)) (derive s).2
  | .dec ch => finishCharacter (unitData (dec5 (derive s).1 ch)) (derive s).2

/-- Every command answers: with its effect where it is accepted, with `ST_BADMODE` elsewhere (rules R87 and R100). -/
theorem exec_eq (i : Instr) (s : State) :
    exec i s = .next (if acceptedIn i s.mode then effect i s else refuse .badMode s) := by
  cases i <;> first | exact accept_eq _ _ _ | rfl

theorem acceptedIn_iff (i : Instr) (m : Mode) : acceptedIn i m = true ↔ m ∈ legalIn i.mnemonic := by
  cases i <;> cases m <;> simp [acceptedIn, legalIn, Instr.mnemonic, Mode.inRun, Mode.beforeRun]

/-- A command leads from a state to a next state in one of two ways. -/
theorem exec_cases {i : Instr} {s t : State} (h : exec i s = .next t) :
    (s.mode ∈ legalIn i.mnemonic ∧ t = effect i s) ∨ (s.mode ∉ legalIn i.mnemonic ∧ t = refuse .badMode s) := by
  rw [exec_eq] at h
  by_cases ha : acceptedIn i s.mode = true
  · rw [if_pos ha] at h
    exact .inl ⟨(acceptedIn_iff i _).1 ha, (Host.Outcome.next.inj h).symm⟩
  · rw [if_neg ha] at h
    exact .inr ⟨fun hm => ha ((acceptedIn_iff i _).2 hm), (Host.Outcome.next.inj h).symm⟩

theorem exec_accepted {i : Instr} {s : State} (h : s.mode ∈ legalIn i.mnemonic) : exec i s = .next (effect i s) := by
  rw [exec_eq, if_pos ((acceptedIn_iff i _).2 h)]

theorem exec_refused {i : Instr} {s : State} (h : s.mode ∉ legalIn i.mnemonic) :
    exec i s = .next (refuse .badMode s) := by
  rw [exec_eq, if_neg fun ha => h ((acceptedIn_iff i _).1 ha)]

/-! ### Derivations and starts, field by field -/

/-- The fields after a character command (rules R73, R82, R83, R91). -/
structure CharacterDone (s t : State) (dout : KVal) : Prop where
  s1 : t.s1 = (rounds (warmupLeft s + 1778) s).s1
  s2 : t.s2 = (rounds (warmupLeft s + 1778) s).s2
  s1Orig : t.s1Orig = s.s1Orig
  s2Orig : t.s2Orig = s.s2Orig
  ld1 : t.ld1 = s.ld1
  ld2 : t.ld2 = s.ld2
  u : t.u = (rounds (warmupLeft s + 1778) s).u
  warm : t.warm = true
  mode : t.mode = if s.mode = .keysValidated then .running else s.mode
  err : t.err = s.err
  cfg : t.cfg = s.cfg
  fpos : t.fpos = s.fpos + (warmupLeft s + 1778)
  fKnown : t.fKnown = s.fKnown
  port : t.port = s.port
  responses : t.responses = s.responses ++ [respWord .ok dout]

theorem finishCharacter_done (s : State) (dout : KVal) : CharacterDone s (finishCharacter dout (derive s).2) dout := by
  constructor <;> simp [finishCharacter, firstCharacter_mode, derive_u, derive_s1, derive_s2]

/-- What START leaves, in its three cases (rule R90). -/
theorem validateKeys_cases (s : State) :
    (¬ (s.ld1 = true ∧ s.ld2 = true) ∧ validateKeys s = respond .ok (boolData false) (abortEntry .keyMissing s))
    ∨ ((s.ld1 = true ∧ s.ld2 = true) ∧ ¬ (oddOnes s.s1 = true ∧ oddOnes s.s2 = true)
        ∧ validateKeys s = respond .ok (boolData false) (abortEntry .keyParity s))
    ∨ ((s.ld1 = true ∧ s.ld2 = true) ∧ (oddOnes s.s1 = true ∧ oddOnes s.s2 = true)
        ∧ validateKeys s = respond .ok (boolData true) { s with mode := .keysValidated }) := by
  unfold validateKeys
  rw [par_eq, par_eq]
  cases h1 : s.ld1 <;> cases h2 : s.ld2 <;> cases h3 : oddOnes s.s1 <;> cases h4 : oddOnes s.s2 <;> simp

/-! ### Steps -/

theorem step_empty {s : State} (h : s.port = []) : step s = .next s := by simp [step, h]

theorem step_illegal {s : State} {w : CommandWord} {rest : List CommandWord} {e : DecodeError} (h : s.port = w :: rest)
    (hd : decode w = .error e) : step s = .next (refuseIllegal (takeWord s)) := by simp [step, h, hd]

theorem step_command {s : State} {w : CommandWord} {rest : List CommandWord} {i : Instr} (h : s.port = w :: rest)
    (hd : decode w = .ok i) : step s = exec i (takeWord s) := by simp [step, h, hd]

/-- A step does one of four things: nothing, an illegal word, a refused command, an accepted command. -/
theorem step_cases {s t : State} (h : step s = .next t) :
    (s.port = [] ∧ t = s)
    ∨ (∃ w rest e, s.port = w :: rest ∧ decode w = .error e ∧ t = refuseIllegal (takeWord s))
    ∨ (∃ w rest i, s.port = w :: rest ∧ decode w = .ok i ∧ exec i (takeWord s) = .next t) := by
  cases hp : s.port with
  | nil => rw [step_empty hp] at h; exact .inl ⟨rfl, (Host.Outcome.next.inj h).symm⟩
  | cons w rest =>
    cases hd : decode w with
    | error e =>
      rw [step_illegal hp hd] at h
      exact .inr (.inl ⟨w, rest, e, rfl, hd, (Host.Outcome.next.inj h).symm⟩)
    | ok i =>
      rw [step_command hp hd] at h
      exact .inr (.inr ⟨w, rest, i, rfl, hd, h⟩)

/-- Every step answers a next state. -/
theorem step_next (s : State) : ∃ t, step s = .next t := by
  cases hp : s.port with
  | nil => exact ⟨s, step_empty hp⟩
  | cons w rest =>
    cases hd : decode w with
    | error e => exact ⟨_, step_illegal hp hd⟩
    | ok i => rw [step_command hp hd, exec_eq]; exact ⟨_, rfl⟩

/-- No command touches the command port. -/
@[simp] theorem effect_port (i : Instr) (s : State) : (effect i s).port = s.port := by
  cases i with
  | drv => exact (finishCharacter_done s _).port
  | enc ch => exact (finishCharacter_done s _).port
  | dec ch => exact (finishCharacter_done s _).port
  | start =>
    rcases validateKeys_cases (restore s) with ⟨-, h⟩ | ⟨-, -, h⟩ | ⟨-, -, h⟩ <;> simp only [effect] <;> rw [h] <;> simp
  | _ => rfl

/-- The effect of a command does not depend on the words still on the port (rule R39). -/
theorem effect_set_port (i : Instr) (p : List CommandWord) (s : State) :
    effect i { s with port := p } = { effect i s with port := p } := by
  have hf : ∀ (d : KVal) (s : State), finishCharacter d { s with port := p } = { finishCharacter d s with port := p } := by
    intro d s
    obtain ⟨-, -, -, -, -, -, -, -, m, -, -, -, -, -, -⟩ := s
    cases m <;> rfl
  cases i with
  | drv => simp only [effect]; rw [derive_set_port, hf]
  | enc ch => simp only [effect]; rw [derive_set_port, hf]
  | dec ch => simp only [effect]; rw [derive_set_port, hf]
  | start =>
    simp only [effect]
    rcases validateKeys_cases (restore s) with ⟨h1, h⟩ | ⟨h1, h2, h⟩ | ⟨h1, h2, h⟩ <;>
      rcases validateKeys_cases (restore { s with port := p }) with ⟨g1, g⟩ | ⟨g1, g2, g⟩ | ⟨g1, g2, g⟩ <;>
      first
      | exact absurd g1 h1
      | exact absurd h1 g1
      | exact absurd g2 h2
      | exact absurd h2 g2
      | (rw [h, g]; rfl)
  | rst => rfl
  | stop => rfl
  | abt => rfl
  | chk => rfl
  | ldk1 k => rfl
  | ldk2 k => rfl
  | shk1 => rfl
  | shk2 => rfl
  | kb1 => rfl
  | kb2 => rfl
  | rsk => rfl

/-- A step takes the oldest word off the port, if there is one. -/
theorem step_port {s t : State} (h : step s = .next t) : t.port = s.port.tail := by
  rcases step_cases h with ⟨hp, rfl⟩ | ⟨w, rest, e, hp, hd, rfl⟩ | ⟨w, rest, i, hp, hd, he⟩
  · simp [hp]
  · simp
  · rcases exec_cases he with ⟨-, rfl⟩ | ⟨-, rfl⟩ <;> simp

theorem noReset_step {s t : State} (h : step s = .next t) (hn : noReset s) : noReset t := by
  intro w hw
  rw [step_port h] at hw
  exact hn w (List.mem_of_mem_tail hw)

/-! ### Runs -/

theorem run_zero (s : State) : run 0 s = .next s := rfl

theorem run_succ {n : Nat} {s t : State} (h : step s = .next t) : run (n + 1) s = run n t := by simp [run, h]

theorem core_run_next {M : Host.Core} {s t : M.State} (h : M.step s = .next t) (n : Nat) : M.run (n + 1) s = M.run n t := by
  simp [Host.Core.run, h]

theorem core_run_fault {M : Host.Core} {s : M.State} {r : M.Fault} (h : M.step s = .fault r) (n : Nat) :
    M.run (n + 1) s = .fault r := by simp [Host.Core.run, h]

theorem core_run_refused {M : Host.Core} {s : M.State} {r : M.Refusal} (h : M.step s = .refused r) (n : Nat) :
    M.run (n + 1) s = .refused r := by simp [Host.Core.run, h]

/-- `run` is the host's `Core.run`. -/
theorem run_eq_core (n : Nat) (s : State) : run n s = Sys2Proof.core.run n s := by
  induction n generalizing s with
  | zero => rfl
  | succ n ih =>
    rw [run]
    cases h : step s with
    | next t => exact (ih t).trans (core_run_next (M := Sys2Proof.core) h n).symm
    | fault r => exact (core_run_fault (M := Sys2Proof.core) h n).symm
    | refused r => exact (core_run_refused (M := Sys2Proof.core) h n).symm

/-- What holds at the start of a run, and is kept by every step that takes a word of the port, holds at its end. -/
theorem run_keeps {P : State → Prop} (hstep : ∀ s t, P s → step s = .next t → P t) :
    ∀ n s t, P s → run n s = .next t → P t := by
  intro n
  induction n with
  | zero => intro s t hs h; rw [run_zero] at h; rwa [← Host.Outcome.next.inj h]
  | succ n ih =>
    intro s t hs h
    cases hst : step s with
    | next u => rw [run_succ hst] at h; exact ih u t (hstep s u hs hst) h
    | fault r => simp [run, hst] at h
    | refused r => simp [run, hst] at h

/-- What a step that takes no RST keeps, a run with no RST keeps, and such a run answers. -/
theorem run_noReset {P : State → Prop} (hstep : ∀ s t, noReset s → P s → step s = .next t → P t) (n : Nat) :
    ∀ s, noReset s → P s → ∃ t, run n s = .next t ∧ P t := by
  induction n with
  | zero => intro s _ h; exact ⟨s, rfl, h⟩
  | succ n ih =>
    intro s hn h
    obtain ⟨t, ht⟩ := step_next s
    obtain ⟨u, hu, hp⟩ := ih t (noReset_step ht hn) (hstep s t hn h ht)
    exact ⟨u, by rw [run_succ ht, hu], hp⟩

end Sys2Proof.Machine
end

