-- ==== Sys2Proof/Laws/Generator.lean ====
section
/-!
SUPPORT. Laws/Generator.lean: the new value of U in a round, bit by bit (42_generator.md rules R64 to R66).
-/

namespace Sys2Proof.Machine

/-- Z reads nothing of the configuration but its table (rule R62). -/
theorem zFun_of_same {c d : Config} (h : c.z = d.z) : zFun c = zFun d := by
  funext e1 e2 e3 e4 e5 e6; simp only [zFun, h]

/-- The number whose bits are six Booleans, the first the most significant, is an index of the table. -/
theorem zIndex_lt (e1 e2 e3 e4 e5 e6 : Bool) :
    32 * e1.toNat + 16 * e2.toNat + 8 * e3.toNat + 4 * e4.toNat + 2 * e5.toNat + e6.toNat < 64 := by
  revert e1 e2 e3 e4 e5 e6; decide

theorem dBit_eq (l : Profile) (u : UReg) (i : Nat) : dBit l u i = bitAt u (l.d.getD (i - 1) none) := by
  unfold dBit dSel bitAt uSel
  cases l.d.getD (i - 1) none <;> rfl

/-- The bits of a shifted group (rule R65). -/
theorem getLsbD_groupShift (l : Profile) (u : UReg) (t : Vector Bool 10) (g i : Nat) (hi : i < 4) :
    (groupShift l u t g).getLsbD i =
      if i = 3 then dBit l u (9 - g) ^^ t.getD (g + 1) false else u.getLsbD (4 * g + i + 1) := by
  unfold groupShift
  change BitVec.getLsbD (w := 1 + 3)
    (BitVec.ofBool (dBit l u (9 - g) ^^ t.getD (g + 1) false) ++ u.extractLsb' (4 * g + 1) 3) i = _
  rw [BitVec.getLsbD_append, BitVec.getLsbD_extractLsb']
  by_cases h : i = 3
  · subst h; simp
  · have h3 : i < 3 := by omega
    rw [if_pos h3, if_neg h, decide_eq_true h3, Bool.true_and]
    congr 1; omega

/-- Bit `4g+i` of the shifted register is bit `i` of group `g` (rule R65). -/
theorem getLsbD_registerShift (l : Profile) (u : UReg) (t : Vector Bool 10) (g i : Nat) (hg : g < 9) (hi : i < 4) :
    (registerShift l u t).getLsbD (4 * g + i) = (groupShift l u t g).getLsbD i := by
  unfold registerShift
  generalize groupShift l u t = n
  change BitVec.getLsbD (w := 4 + 4 + 4 + 4 + 4 + 4 + 4 + 4 + 4) (n 8 ++ n 7 ++ n 6 ++ n 5 ++ n 4 ++ n 3 ++ n 2 ++ n 1 ++ n 0)
    (4 * g + i) = _
  simp only [BitVec.getLsbD_append]
  interval_cases g <;> (repeat first | rw [if_pos (by omega)] | rw [if_neg (by omega)]) <;> (congr 1; omega)

/-- Key injection changes bit 35 alone (rule R66). -/
theorem getLsbD_injectKey (n : UReg) (s1 : Bool) (i : Nat) (hi : i < 36) :
    (injectKey n s1).getLsbD i = (n.getLsbD i ^^ (decide (i = 35) && s1)) := by
  unfold injectKey
  by_cases h : i = 35
  · subst h; cases s1 <;> simp
  · have h35 : i < 35 := by omega
    simp [h35, h]

/-- The new U, bit by bit (rules R65, R66, R69). -/
theorem getLsbD_nextU (c : Config) (u : UReg) (s1 s2 f : Bool) (g i : Nat) (hg : g < 9) (hi : i < 4) :
    (nextU c u s1 s2 f).getLsbD (4 * g + i) =
      ((if i = 3 then dBit (ltkOf c) u (9 - g) ^^ (pipeline c u s2 f).getD (g + 1) false else u.getLsbD (4 * g + i + 1))
        ^^ (decide (4 * g + i = 35) && s1)) := by
  unfold nextU
  rw [getLsbD_injectKey _ _ _ (by omega), getLsbD_registerShift _ _ _ _ _ hg hi, getLsbD_groupShift _ _ _ _ _ hi]

end Sys2Proof.Machine
end

