-- ==== Sys2Proof/Laws/PerInstr.lean ====
section
/-!
SUPPORT. Laws/PerInstr.lean: the families of statements about every command as syntax, one lemma per constructor.
-/

namespace Sys2Proof.Laws.Encodes

/-- The word of a command is its row's match above an operand field that sets no bit the row reserves (rules R41 and R43), and the
command is well formed. -/
def Statement (i : Instr) : Prop :=
  opcField (encode i) = i.mnemonic.opcode ∧ opdField (encode i) = i.operand
    ∧ i.mnemonic.format.reservedZero (opdField (encode i)) = true ∧ i.wellFormed = true

/-- The two fields of a command's word. -/
theorem fields (i : Instr) : opcField (encode i) = i.mnemonic.opcode ∧ opdField (encode i) = i.operand :=
  ⟨opcField_append _ _, opdField_append _ _⟩

/-- A command whose operand field sets no reserved bit. -/
theorem of_operand {i : Instr} (h : i.mnemonic.format.reservedZero i.operand = true) (hw : i.wellFormed = true) :
    Statement i := by
  obtain ⟨ho, hd⟩ := fields i
  exact ⟨ho, hd, by rw [hd]; exact h, hw⟩

theorem rst : Statement .rst := of_operand (by decide) rfl
theorem start : Statement .start := of_operand (by decide) rfl
theorem stop : Statement .stop := of_operand (by decide) rfl
theorem abt : Statement .abt := of_operand (by decide) rfl
theorem chk : Statement .chk := of_operand (by decide) rfl
theorem ldk1 (keyop : KeyRing) : Statement (.ldk1 keyop) := of_operand rfl rfl
theorem ldk2 (keyop : KeyRing) : Statement (.ldk2 keyop) := of_operand rfl rfl
theorem shk1 : Statement .shk1 := of_operand (by decide) rfl
theorem shk2 : Statement .shk2 := of_operand (by decide) rfl
theorem kb1 : Statement .kb1 := of_operand (by decide) rfl
theorem kb2 : Statement .kb2 := of_operand (by decide) rfl
theorem rsk : Statement .rsk := of_operand (by decide) rfl
theorem drv : Statement .drv := of_operand (by decide) rfl
theorem enc (ch : CharUnit) : Statement (.enc ch) := of_operand (beq_iff_eq.2 (unit_reserved ch)) rfl
theorem dec (ch : CharUnit) : Statement (.dec ch) := of_operand (beq_iff_eq.2 (unit_reserved ch)) rfl

end Sys2Proof.Laws.Encodes
end

