-- ==== Sys2Proof/Tests/Slice0.lean ====
section
/-!
SUPPORT. Tests/Slice0.lean: tests of the model against numbers the spec prints (95_test_vectors.md, 90 to 93), and for every
obligation with hypotheses a witness that meets them together. No expected value here comes from the model.
-/

namespace Sys2Proof.Tests

open Sys2Proof.Machine

/-! ### Decoding: words written out from 95_test_vectors.md section 2.1 -/

theorem test_decode_rst : decode 0x01000000000000000000000000000000#128 = .ok .rst := by decide
theorem test_decode_start : decode 0x02000000000000000000000000000000#128 = .ok .start := by decide
theorem test_decode_stop : decode 0x03000000000000000000000000000000#128 = .ok .stop := by decide
theorem test_decode_abt : decode 0x04000000000000000000000000000000#128 = .ok .abt := by decide
theorem test_decode_chk : decode 0x08000000000000000000000000000000#128 = .ok .chk := by decide
theorem test_decode_ldk1 : decode 0x10100E0D0C0B0A090807060504030201#128
    = .ok (.ldk1 0x100E0D0C0B0A090807060504030201#120) := by decide
theorem test_decode_ldk2 : decode 0x11FFFFFFFFFFFFFFFFFFFFFFFFFFFFFF#128
    = .ok (.ldk2 0xFFFFFFFFFFFFFFFFFFFFFFFFFFFFFF#120) := by decide
theorem test_decode_shk1 : decode 0x12000000000000000000000000000000#128 = .ok .shk1 := by decide
theorem test_decode_shk2 : decode 0x13000000000000000000000000000000#128 = .ok .shk2 := by decide
theorem test_decode_kb1 : decode 0x14000000000000000000000000000000#128 = .ok .kb1 := by decide
theorem test_decode_kb2 : decode 0x15000000000000000000000000000000#128 = .ok .kb2 := by decide
theorem test_decode_rsk : decode 0x16000000000000000000000000000000#128 = .ok .rsk := by decide
theorem test_decode_drv : decode 0x20000000000000000000000000000000#128 = .ok .drv := by decide
theorem test_decode_enc : decode 0x2100000000000000000000000000001F#128 = .ok (.enc 0x1F#5) := by decide
theorem test_decode_dec : decode 0x22000000000000000000000000000016#128 = .ok (.dec 0x16#5) := by decide

theorem test_unassigned_opcodes :
    decode 0x00000000000000000000000000000000#128 = .error (.unassignedOpcode 0x00#8)
    ∧ decode 0x05000000000000000000000000000000#128 = .error (.unassignedOpcode 0x05#8)
    ∧ decode 0x17000000000000000000000000000000#128 = .error (.unassignedOpcode 0x17#8)
    ∧ decode 0x23000000000000000000000000000000#128 = .error (.unassignedOpcode 0x23#8)
    ∧ decode 0xFF000000000000000000000000000000#128 = .error (.unassignedOpcode 0xFF#8) := by decide

theorem test_reserved_bits :
    decode 0x02000000000000000000000000000001#128 = .error (.reservedBits .start)
    ∧ decode 0x20800000000000000000000000000000#128 = .error (.reservedBits .drv)
    ∧ decode 0x21000000000000000000000000000020#128 = .error (.reservedBits .enc)
    ∧ decode 0x22000000000000000000000000000100#128 = .error (.reservedBits .dec) := by decide

/-- A table row's word: bits above `nbits` are not looked at, and bits above 127 make it no command. -/
theorem test_table_word :
    decodeTableWord 128 0x21000000000000000000000000000014 = some (.enc 0x14#5)
    ∧ decodeTableWord 128 0 = none ∧ decodeTableWord 136 (2 ^ 128 + 2 ^ 121) = none := by decide

/-! ### WellFormed: an ill-formed term for each check, and the check refuses it -/

theorem smoke_plain_takes_no_operand : (Line.plain .enc).wellFormed = false ∧ (Line.plain .ldk1).wellFormed = false := by decide
theorem smoke_key_of_fourteen_bytes : (Line.key .ldk1 (List.replicate 14 0x01#8)).wellFormed = false := by decide
theorem smoke_key_of_sixteen_bytes : (Line.key .ldk2 (List.replicate 16 0x01#8)).wellFormed = false := by decide
theorem smoke_key_of_a_format_n_command : (Line.key .chk (List.replicate 15 0x01#8)).wellFormed = false := by decide
theorem smoke_unit_out_of_range : (Line.unit .enc 32).wellFormed = false := by decide
theorem smoke_unit_of_a_format_n_command : (Line.unit .drv 0).wellFormed = false := by decide
theorem smoke_register_number : (Line.shk 3).wellFormed = false ∧ (Line.kb 0).wellFormed = false
    ∧ (Line.ldk 0 (List.replicate 15 0x01#8)).wellFormed = false := by decide
theorem smoke_pair_of_keys : (Line.keys (List.replicate 15 0x01#8) (List.replicate 14 0x01#8)).wellFormed = false
    ∧ (Line.keys [] (List.replicate 15 0x01#8)).wellFormed = false := by decide
theorem smoke_units_out_of_range : (Line.encs [0, 32]).wellFormed = false ∧ (Line.decs [99]).wellFormed = false
    ∧ (Line.encs []).wellFormed = false ∧ (Line.decs []).wellFormed = false := by decide

/-! ### The assembler (rules R47 and R48) -/

/-- The three examples of rule R47, as text and as hexadecimal digits. -/
theorem test_assemble_start :
    (assembleText "START".toList).map (List.map hexDigits) = some ["02000000000000000000000000000000".toList] := by
  decide +kernel
theorem test_assemble_ldk1 :
    (assembleText "LDK1 01 02 03 04 05 06 07 08 09 0A 0B 0C 0D 0E 10".toList).map (List.map hexDigits)
      = some ["10100E0D0C0B0A090807060504030201".toList] := by decide +kernel
theorem test_assemble_enc :
    (assembleText "ENC 0x14 ; a comment".toList).map (List.map hexDigits)
      = some ["21000000000000000000000000000014".toList] := by decide +kernel
theorem test_assemble_pseudo :
    assembleText "RUN".toList = some [0x01#8 ++ 0#120, 0x02#8 ++ 0#120]
    ∧ assembleText "SHK 2".toList = some [0x13#8 ++ 0#120]
    ∧ assembleText "KB 1".toList = some [0x14#8 ++ 0#120]
    ∧ assembleText "ENCS 1 0x1F".toList = some [0x21#8 ++ 1#120, 0x21#8 ++ 0x1F#120] := by decide +kernel
theorem test_assemble_keys :
    (assembleText ("KEYS 01 02 03 04 05 06 07 08 09 0A 0B 0C 0D 0E 10 / "
        ++ "F1 E2 D3 C4 B5 A6 97 88 79 6A 5B 4C 3D 2E 1E").toList).map (List.map hexDigits)
      = some ["10100E0D0C0B0A090807060504030201".toList, "111E2E3D4C5B6A798897A6B5C4D3E2F1".toList] := by decide +kernel
theorem test_assemble_ldk :
    assembleText "LDK 2, F1 E2 D3 C4 B5 A6 97 88 79 6A 5B 4C 3D 2E 1E".toList
      = some [0x111E2E3D4C5B6A798897A6B5C4D3E2F1#128] := by decide +kernel
/-- A key of 14 bytes, a unit of 32 and an operand of RST are refused by the host. -/
theorem test_assemble_refuses :
    assembleText "LDK1 01 02 03 04 05 06 07 08 09 0A 0B 0C 0D 0E".toList = none
    ∧ assembleText "ENC 32".toList = none ∧ assembleText "RST 0".toList = none := by decide +kernel

/-! ### The parameter set PS-A (93_implementation_defined.md G1 to G3) -/

/-- The profile of G3. -/
def profileA : Profile where
  p := #v[29, 32, 3, 6, 18, 0, 31, 1, 27, 20, 13, 10, 4, 24, 15, 35, 23, 11, 16, 28, 12, 21, 14, 7, 26, 8, 30]
  d := #v[none, some 21, some 33, some 13, some 25, some 9, some 5, some 1, some 17]
  alpha := 34

/-- PS-A in every place of the catalogue. -/
def configA (sel : KeyBitSel) : Config where
  keybitSel := sel
  ltkId := 0
  ltkRom := Vector.replicate 11 profileA
  z := 0xA1FA4C1EC0BD59D1#64
  uInit := 0x69C7C85A3#36

/-- The configuration vector that G3 prints. -/
def ltkCfgA : BitVec 222 := 0x2244114964D855FDE21A1CE54C7102D78CF60428D51B05F01218381D#222

theorem test_profile_vector : cfgOfProfile profileA = ltkCfgA := by decide +kernel
theorem test_profile_read : profileOfCfg ltkCfgA = some profileA := by decide +kernel
/-- `NONE` in the ALPHA field, and a position of 36, are refused (I5). -/
theorem test_profile_refused :
    profileOfCfg (ltkCfgA ||| 63#222 <<< 216) = none ∧ profileOfCfg (BitVec.ofNat 222 36) = none := by decide +kernel
theorem test_configure :
    configure 0#1 0#4 (Vector.replicate 11 ltkCfgA) 0xA1FA4C1EC0BD59D1#64 0x69C7C85A3#36 = some (configA .high) := by
  decide +kernel
theorem test_configure_refused :
    configure 0#1 11#4 (Vector.replicate 11 ltkCfgA) 0#64 0#36 = none := by decide +kernel
/-- G1: the function has degree 5. -/
theorem test_z_degree : zHasDegreeFive 0xA1FA4C1EC0BD59D1#64 = true := by decide +kernel
/-- The spot values of section 2.3, arguments `000001` and `100000` 0, `101010` and `010101` 1. -/
theorem test_z_values :
    zFun (configA .high) false false false false false true = false
    ∧ zFun (configA .high) true false false false false false = false
    ∧ zFun (configA .high) true false true false true false = true
    ∧ zFun (configA .high) false true false true false true = true
    ∧ zFun (configA .high) false false false false false false = true := by decide +kernel

/-! ### Keys of section 2.2, and states -/

/-- `KEYOP` of the key KA. -/
def keyopA : KeyRing := 0x100E0D0C0B0A090807060504030201#120
/-- `KEYOP` of the key KB. -/
def keyopB : KeyRing := 0x1E2E3D4C5B6A798897A6B5C4D3E2F1#120
/-- `Ring` of KA: the words `030201 060504 090807 0C0B0A 100E0D`. -/
def ringA : KeyRing := 0x0302010605040908070C0B0A100E0D#120
/-- `Ring` of KB: the words `D3E2F1 A6B5C4 798897 4C5B6A 1E2E3D`. -/
def ringB : KeyRing := 0xD3E2F1A6B5C47988974C5B6A1E2E3D#120
/-- `Ring` of KE, of even parity: the words of KA but the last, `0F0E0D`. -/
def ringE : KeyRing := 0x0302010605040908070C0B0A0F0E0D#120

/-- Power-on under PS-A, with an F stream whose first bits are 0. -/
def powered (sel : KeyBitSel) : State := State.powerOn (configA sel) [false, false, false, false, false, false, false, false]

/-- `IDLE`, with KA and KB loaded. -/
def loaded (sel : KeyBitSel) : State :=
  { powered sel with s1 := ringA, s2 := ringB, s1Orig := ringA, s2Orig := ringB, ld1 := true, ld2 := true }

/-- `KEYS_VALIDATED`. -/
def validated : State := { loaded .high with mode := .keysValidated }

/-- A state as in `RUNNING`: the key registers shifted once, the warm-up run. -/
def running : State :=
  { loaded .high with s1 := ringShift ringA, s2 := ringShift ringB, warm := true, mode := .running, fpos := 1911 }

/-- `FINISHED`. -/
def finished : State := { running with mode := .finished }

/-- `ABORTED` by ABT. -/
def aborted : State := { loaded .high with mode := .aborted, err := .sync }

/-- The state with these words on the port. -/
def given (ws : List CommandWord) (s : State) : State := { s with port := ws }

/-- The first state after a step, for tests of one step. -/
def after (s : State) : State :=
  match step s with
  | .next t => t
  | .fault _ => s
  | .refused _ => s

/-! ### One step (rules R53 to R60, R85 to R104; sequences A to G of section 2.5) -/

theorem test_power_on_status : (powered .high).status = 0x000#9 := by decide
theorem test_ldk1 : (after (given [0x10#8 ++ keyopA] (powered .high))).s1 = ringA
    ∧ (after (given [0x10#8 ++ keyopA] (powered .high))).status = 0x001#9
    ∧ (after (given [0x10#8 ++ keyopA] (powered .high))).responses = [0x0001#16] := by decide +kernel
theorem test_ldk2 : (after (given [0x11#8 ++ keyopB] (powered .high))).s2Orig = ringB
    ∧ (after (given [0x11#8 ++ keyopB] (powered .high))).status = 0x002#9
    ∧ (after (given [0x11#8 ++ keyopB] (powered .high))).responses = [0x0001#16] := by decide +kernel
/-- All 120 bits set: result 0 (rule R53). -/
theorem test_ldk1_all_ones : (after (given [0x10#8 ++ BitVec.allOnes 120] (powered .high))).responses = [0x0000#16]
    ∧ (after (given [0x10#8 ++ BitVec.allOnes 120] (powered .high))).ld1 = true := by decide +kernel
theorem test_chk : (after (given [0x08#8 ++ 0#120] (loaded .high))).responses = [0x0001#16]
    ∧ (after (given [0x08#8 ++ 0#120] (powered .high))).responses = [0x0000#16] := by decide +kernel
/-- `818100 830282 048403 860585 080706` (rule R56). -/
theorem test_shk1 : (after (given [0x12#8 ++ 0#120] (loaded .high))).s1 = 0x818100830282048403860585080706#120 := by
  decide +kernel
/-- `E9F178 D35AE2 3CC44B A62DB5 0F171E` (rule R57). -/
theorem test_shk2 : (after (given [0x13#8 ++ 0#120] (loaded .high))).s2 = 0xE9F178D35AE23CC44BA62DB50F171E#120 := by
  decide +kernel
/-- KA gives 1 under `HIGH` and 0 under `LOW` (rule R58). -/
theorem test_kb1 : (after (given [0x14#8 ++ 0#120] (loaded .high))).responses = [0x0001#16]
    ∧ (after (given [0x14#8 ++ 0#120] (loaded .low))).responses = [0x0000#16] := by decide +kernel
/-- KB shifted once gives 0 under `HIGH` and 1 under `LOW` (section 2.2). -/
theorem test_kb2 :
    (after (given [0x15#8 ++ 0#120] { loaded .high with s2 := ringShift ringB })).responses = [0x0000#16]
    ∧ (after (given [0x15#8 ++ 0#120] { loaded .low with s2 := ringShift ringB })).responses = [0x0001#16] := by
  decide +kernel
theorem test_rsk : (after (given [0x16#8 ++ 0#120] { loaded .high with s1 := 0#120, s2 := 1#120 })).s1 = ringA
    ∧ (after (given [0x16#8 ++ 0#120] { loaded .high with s1 := 0#120, s2 := 1#120 })).s2 = ringB := by decide +kernel
/-- `0001`, `043` (rule R90). -/
theorem test_start : (after (given [0x02#8 ++ 0#120] (loaded .high))).responses = [0x0001#16]
    ∧ (after (given [0x02#8 ++ 0#120] (loaded .high))).status = 0x043#9 := by decide +kernel
/-- Nothing loaded: `108`; only S1 loaded: `109`; S1 of even parity: `11B` (section 2.1). -/
theorem test_start_aborts : (after (given [0x02#8 ++ 0#120] (powered .high))).status = 0x108#9
    ∧ (after (given [0x02#8 ++ 0#120] { loaded .high with ld2 := false })).status = 0x109#9
    ∧ (after (given [0x02#8 ++ 0#120] { loaded .high with s1Orig := ringE })).status = 0x11B#9 := by decide +kernel
/-- `0C7` from `RUNNING`, `0C3` from `KEYS_VALIDATED`. -/
theorem test_stop : (after (given [0x03#8 ++ 0#120] running)).status = 0x0C7#9
    ∧ (after (given [0x03#8 ++ 0#120] validated)).status = 0x0C3#9 := by decide +kernel
/-- `123` with both keys loaded, `120` with nothing loaded. -/
theorem test_abt : (after (given [0x04#8 ++ 0#120] validated)).status = 0x123#9
    ∧ (after (given [0x04#8 ++ 0#120] (powered .high))).status = 0x120#9 := by decide +kernel
/-- `003` after RST (rule R89). -/
theorem test_rst : (after (given [0x01#8 ++ 0#120] running)).status = 0x003#9
    ∧ (after (given [0x01#8 ++ 0#120] running)).s1 = ringA
    ∧ (after (given [0x01#8 ++ 0#120] aborted)).status = 0x003#9 := by decide +kernel
/-- Refusals of sequences F and G, and the order of checks (rule R102). -/
theorem test_refusals : (after (given [0x20#8 ++ 0#120] (loaded .high))).responses = [0x8000#16]
    ∧ (after (given [0x21#8 ++ 0#120] (loaded .high))).responses = [0x8000#16]
    ∧ (after (given [0x22#8 ++ 0#120] aborted)).responses = [0x8000#16]
    ∧ (after (given [0x21#8 ++ 0x20#120] (loaded .high))).responses = [0x4000#16]
    ∧ (after (given [0x16#8 ++ 0#120] running)).responses = [0x8000#16]
    ∧ (after (given [0x02#8 ++ 0#120] finished)).responses = [0x8000#16] := by decide +kernel

/-! ### Single rounds (the table of section 2.3) -/

theorem test_round_zero : nextU (configA .high) 0x69C7C85A3#36 false false false = 0xB4EB642D1#36
    ∧ nextU (configA .high) 0x69C7C85A3#36 true false false = 0x34EB642D1#36 := by decide +kernel
theorem test_round_s2 : nextU (configA .high) 0x69C7C85A3#36 false true false = 0xB4EBECA51#36 := by decide +kernel
theorem test_round_f : nextU (configA .high) 0x69C7C85A3#36 false false true = 0x3C63ECA59#36
    ∧ nextU (configA .high) 0x69C7C85A3#36 true true true = 0xBC63642D9#36 := by decide +kernel
theorem test_round_empty : nextU (configA .high) 0#36 false false false = 0x008800880#36
    ∧ nextU (configA .high) 0#36 true true true = 0x080000888#36 := by decide +kernel
theorem test_round_ones : nextU (configA .high) 0xFFFFFFFFF#36 false false false = 0x77F7F7F7F#36
    ∧ nextU (configA .high) 0xFFFFFFFFF#36 true true true = 0xF7F77F7F7#36 := by decide +kernel
/-- U after the first three rounds of the trace, `HIGH` and `LOW`. -/
theorem test_trace : (rounds 1 (loaded .high)).u = 0x34EBECA51#36 ∧ (rounds 3 (loaded .high)).u = 0xC57A7B2DC#36
    ∧ (rounds 1 (loaded .low)).u = 0xB4EBECA51#36 ∧ (rounds 3 (loaded .low)).u = 0xADF2F3A5C#36 := by decide +kernel

/-- A round reads the F stream at FPOS: on the bits 0, 1, the row of `f = 0` at the first bit and the row of `f = 1` at the second
(rules R24 and R68). -/
theorem test_round_reads_the_stream :
    (Machine.round { powered .high with fKnown := [false, true], fpos := 0 }).u = 0xB4EB642D1#36
    ∧ (Machine.round { powered .high with fKnown := [false, true], fpos := 1 }).u = 0x3C63ECA59#36
    ∧ (Machine.round { powered .high with fKnown := [false, true], fpos := 1 }).fpos = 2 := by decide +kernel

/-! ### The cipher (section 2.4) -/

theorem test_next : lfsrNext 0b11111#5 = 0b11110#5 ∧ lfsrNext 0b10000#5 = 0b00001#5 ∧ lfsrNext 0b00100#5 = 0b01001#5
    ∧ lfsrNext 0b10100#5 = 0b01000#5 ∧ lfsrNext 0x17#5 = 0x0E#5 := by decide
theorem test_loop : lfsrLoop 0x00#5 0x15#5 = (0x00#5, 0x15#5) ∧ lfsrLoop 0x1F#5 0x15#5 = (0x1F#5, 0x15#5)
    ∧ lfsrLoop 0x1E#5 0x1F#5 = (0x1F#5, 0x0F#5) ∧ lfsrLoop 0x01#5 0x1F#5 = (0x1F#5, 0x15#5) := by decide
theorem test_enc5 : enc5 0x001E#13 0x01#5 = 0x02#5 ∧ enc5 0x1ABC#13 0x1F#5 = 0x14#5 ∧ enc5 0x1555#13 0x0A#5 = 0x15#5
    ∧ enc5 0x0841#13 0x11#5 = 0x11#5 ∧ enc5 0x07C0#13 0x15#5 = 0x0A#5 ∧ enc5 0x0A8B#13 0x14#5 = 0x16#5 := by decide
theorem test_dec5 : dec5 0x001E#13 0x02#5 = 0x01#5 ∧ dec5 0x1ABC#13 0x14#5 = 0x1F#5 ∧ dec5 0x1555#13 0x15#5 = 0x0A#5
    ∧ dec5 0x0841#13 0x11#5 = 0x11#5 ∧ dec5 0x1FFF#13 0x1F#5 = 0x00#5 := by decide

/-! ### Witnesses: for each obligation with hypotheses, inputs that meet them together -/

theorem witness_DecodeOfEncodeIsTheCommand : (Instr.enc 0x14#5).wellFormed = true := by decide
theorem witness_EncodeOfDecodeIsTheWord : decode 0x21000000000000000000000000000014#128 = .ok (.enc 0x14#5) := by decide
theorem witness_MatchAndMaskSelectTheCommand :
    0x21000000000000000000000000000014#128 &&& 0xFFFFFFFFFFFFFFFFFFFFFFFFFFFFFFE0#128 = 0x21#128 <<< 120
    ∧ 0x21000000000000000000000000000034#128 &&& 0xFFFFFFFFFFFFFFFFFFFFFFFFFFFFFFE0#128 ≠ 0x21#128 <<< 120 := by decide
theorem witness_IllegalWordsAreRefusedWithNoEffect :
    (given [0#128] running).port = 0#128 :: [] ∧ decode 0#128 = .error (.unassignedOpcode 0#8) := by decide
theorem witness_StepRunsTheDecodedCommand :
    (given [0x14#8 ++ 0#120, 0#128] running).port = (0x14#8 ++ 0#120) :: [0#128] ∧ decode (0x14#8 ++ 0#120) = .ok .kb1 := by
  decide
theorem witness_StepWithNoCommandChangesNothing : (loaded .low).port = [] := by decide
theorem witness_WordPresentedFirstRunsNext :
    decodeTableWord 128 0x20000000000000000000000000000000 = some .drv
    ∧ decode 0x20000000000000000000000000000000#128 = .ok .drv := by decide
/-- One accepted and one refused command of each kind of mode test. -/
theorem witness_AcceptedExactlyInItsModes :
    running.mode ∈ legalIn Instr.drv.mnemonic ∧ (loaded .high).mode ∈ legalIn Instr.start.mnemonic
    ∧ validated.mode ∈ legalIn Instr.abt.mnemonic ∧ aborted.mode ∈ legalIn Instr.rst.mnemonic
    ∧ running.mode ∉ legalIn Instr.abt.mnemonic ∧ finished.mode ∉ legalIn Instr.stop.mnemonic
    ∧ validated.mode ∉ legalIn Instr.start.mnemonic ∧ (loaded .high).mode ∉ legalIn Instr.drv.mnemonic := by decide
/-- The two cases of START, each in `IDLE`, and the two of a character. -/
theorem witness_NextModeFollowsTheTable :
    (loaded .high).mode = .idle ∧ keysGood (loaded .high) ∧ (powered .high).mode = .idle ∧ ¬ keysGood (powered .high)
    ∧ validated.mode = .keysValidated ∧ running.mode = .running := by decide +kernel
theorem witness_EachCommandWritesOnlyItsState :
    exec .start (powered .high) = .next (effect .start (powered .high)) ∧ exec .rst running = .next (effect .rst running)
    ∧ (∃ t, exec .drv validated = .next t) ∧ exec .start running = .next (refuse .badMode running)
    ∧ exec .abt validated = .next (effect .abt validated) :=
  ⟨rfl, rfl, ⟨_, rfl⟩, rfl, rfl⟩
theorem witness_EveryWordIsAnsweredOnce :
    (given [0x20#8 ++ 0#120] (loaded .high)).port = (0x20#8 ++ 0#120) :: []
    ∧ (0x8000#16).extractLsb' 14 2 ≠ 0#2 ∧ decode (0x20#8 ++ 0#120) = .ok .drv := by decide
/-- A first derivation, a later one, a refused one, and an illegal word. -/
theorem witness_FBitsAreConsumedByDerivationsOnly :
    (derives Instr.drv.mnemonic = true ∧ validated.mode ∈ legalIn Instr.drv.mnemonic ∧ validated.warm = false)
    ∧ (running.mode ∈ legalIn Instr.drv.mnemonic ∧ running.warm = true)
    ∧ (loaded .high).mode ∉ legalIn Instr.drv.mnemonic
    ∧ decode 0x23000000000000000000000000000000#128 = .error (.unassignedOpcode 0x23#8) := by decide

theorem witness_LoadWritesRegisterSnapshotAndFlag : (powered .high).mode = .idle ∧ running.mode ∉ [Mode.idle] := by decide
/-- The first and the last byte of a buffer of 15. -/
theorem witness_KeyBytesLandInTheirWords :
    ∃ bytes : List Byte, bytes.length = 15 ∧ 0 < bytes.length ∧ 14 < bytes.length ∧ (powered .high).mode = .idle
      ∧ keyopOfBytes bytes = keyopA :=
  ⟨[0x01, 0x02, 0x03, 0x04, 0x05, 0x06, 0x07, 0x08, 0x09, 0x0A, 0x0B, 0x0C, 0x0D, 0x0E, 0x10], by decide +kernel⟩
theorem witness_ShiftRotatesItsRegisterOnly : (loaded .high).mode = .idle ∧ finished.mode ∉ [Mode.idle] := by decide
theorem witness_HundredTwentyShiftsRestore :
    Instr.shk1 ∈ [Instr.shk1, .shk2] ∧ (given (List.replicate 120 (encode .shk1)) (loaded .high)).mode = .idle
    ∧ (given (List.replicate 120 (encode .shk1)) (loaded .high)).port = List.replicate 120 (encode .shk1) :=
  ⟨by decide, rfl, rfl⟩
theorem witness_RestoreKeysCopiesTheSnapshots : (loaded .high).mode = .idle ∧ aborted.mode ∉ [Mode.idle] := by decide

/-- The first and the last entry of a table, and two configurations that differ in everything but Z. -/
theorem witness_ZIsTheFunctionOfItsTruthTable :
    0 < 64 ∧ 63 < 64
    ∧ ∃ c d : Config, c.z = d.z ∧ c.keybitSel ≠ d.keybitSel ∧ c.ltkId ≠ d.ltkId ∧ c.uInit ≠ d.uInit :=
  ⟨by decide, by decide, configA .high, { configA .low with ltkId := 10, uInit := 0#36 }, rfl, by decide, by decide, by decide⟩
/-- The last known bit and the first free one, a bit of a finite beginning, and two states of the same known bits. -/
theorem witness_FBitsAreReadInOrder :
    7 < (powered .high).fKnown.length ∧ ¬ 8 < (powered .high).fKnown.length ∧ 0 < 1
    ∧ (powered .high).fKnown = running.fKnown := by decide

theorem witness_KeyBitOfRoundN :
    (loaded .high).cfg.keybitSel = .high ∧ (loaded .low).cfg.keybitSel = .low := by decide
theorem witness_DeriveAnswersTheTapsOfItsBlocks :
    validated.mode = .keysValidated ∧ warmupLeft validated = 133 ∧ running.mode = .running ∧ warmupLeft running = 0
    ∧ (loaded .high).mode ∉ [Mode.keysValidated, .running] ∧ aborted.mode ∉ [Mode.keysValidated, .running] := by decide
/-- An engine that differs from `running` in every field the derivation does not read. -/
def otherEngine : State :=
  let s := { running with s1Orig := 0#120, s2Orig := 1#120, ld1 := false, ld2 := false }
  { s with mode := .keysValidated, err := .sync, port := [0#128], responses := [0x4000#16] }

theorem witness_DerivationDependsOnTheGeneratorAlone :
    sameGenerator running otherEngine ∧ running.mode = .running ∧ otherEngine.mode = .keysValidated :=
  ⟨⟨rfl, rfl, rfl, rfl, rfl, fun _ => rfl⟩, rfl, rfl⟩

theorem witness_LoopIsTheWhileLoopOfTheTable :
    shiftCount 0x1E#5 = 30 ∧ shiftCount 0x00#5 = 0 ∧ shiftCount 0x1F#5 = 0 := by decide
theorem witness_NextRunsThroughOneCycle : (0x0F#5 : CharUnit) ≠ 0#5 ∧ nextTimes 30 0x1F#5 = 0x0F#5 := by decide
/-- An ENC and a DEC whose lowest reserved bit is set, and states of both modes. -/
theorem witness_EncryptAnswersUnderAFreshValue :
    (given [0x21000000000000000000000000000020#128] validated).port = 0x21000000000000000000000000000020#128 :: []
    ∧ (0x21000000000000000000000000000020#128).extractLsb' 120 8 = 0x21#8
    ∧ (0x21000000000000000000000000000020#128).extractLsb' 5 115 ≠ 0#115
    ∧ validated.mode = .keysValidated ∧ running.mode = .running
    ∧ (loaded .high).mode ∉ [Mode.keysValidated, .running] := by decide
theorem witness_DecryptAnswersUnderAFreshValue :
    (given [0x22800000000000000000000000000000#128] running).port = 0x22800000000000000000000000000000#128 :: []
    ∧ (0x22800000000000000000000000000000#128).extractLsb' 120 8 = 0x22#8
    ∧ (0x22800000000000000000000000000000#128).extractLsb' 5 115 ≠ 0#115
    ∧ validated.mode = .keysValidated ∧ running.mode = .running ∧ finished.mode ∉ [Mode.keysValidated, .running] := by
  decide
/-- A message of one unit: the first engine encrypts it, and the second is given the response. -/
theorem witness_DecryptingTheResponsesGivesTheMessage :
    ∃ (p c : CharUnit) (a b a' : State), sameGenerator a b ∧ a.mode = .keysValidated ∧ b.mode = .keysValidated
      ∧ a.port = [p].map (fun p => encode (.enc p)) ∧ run [p].length a = .next a' ∧ [c].length = [p].length
      ∧ a'.responses = a.responses ++ [c].map (fun c => 0#11 ++ c) ∧ b.port = [c].map (fun c => encode (.dec c)) := by
  have hd : decode (encode (.enc 0x14#5)) = .ok (.enc 0x14#5) := by decide
  have hu : ∀ c : CharUnit, respWord .ok (unitData c) = 0#11 ++ c := by decide
  refine ⟨0x14#5, enc5 (derive validated).1 0x14#5, given [encode (.enc 0x14#5)] validated,
    given [encode (.dec (enc5 (derive validated).1 0x14#5))] validated, effect (.enc 0x14#5) validated,
    ⟨rfl, rfl, rfl, rfl, rfl, fun _ => rfl⟩, rfl, rfl, rfl, ?_, rfl, ?_, rfl⟩
  · exact run_succ (n := 0) ((step_command rfl hd).trans (exec_accepted (i := .enc 0x14#5) (s := validated) (by decide)))
  · exact ((finishCharacter_done validated _).responses).trans (by rw [hu]; rfl)

/-- START's three clauses: a missing key, an even parity with both loaded, both keys good. -/
theorem witness_StartValidatesOrAborts :
    ((loaded .high).mode = .idle ∧ (loaded .high).ld1 = true ∧ (loaded .high).ld2 = true
      ∧ oddOnes (loaded .high).s1Orig ∧ oddOnes (loaded .high).s2Orig)
    ∧ ({ loaded .high with ld2 := false } : State).ld2 = false
    ∧ ¬ (oddOnes ringE ∧ oddOnes (loaded .high).s2Orig) ∧ running.mode ∉ [Mode.idle] := by decide +kernel
theorem witness_StopFinishesTheRun : validated.mode = .keysValidated ∧ running.mode = .running
    ∧ (loaded .high).mode ∉ [Mode.keysValidated, .running] := by decide
theorem witness_AbortBeforeTheRunReportsSync : (loaded .high).mode = .idle ∧ validated.mode = .keysValidated
    ∧ running.mode ∉ [Mode.idle, .keysValidated] := by decide
theorem witness_ResetThenStartIsStart : (loaded .high).mode = .idle ∧ (loaded .high).err = .none := by decide

/-- No RST on a port, word by word. -/
theorem noReset_given {ws : List CommandWord} (s : State) (h : ∀ w ∈ ws, decode w ≠ .ok .rst) : noReset (given ws s) := h

/-- A running engine with a character, an illegal word and a stop on its port; and the two commands that raise an error. -/
theorem witness_NoErrorOnceRunning :
    (given [0x20#8 ++ 0#120, 0#128, 0x03#8 ++ 0#120] running).mode = .running
    ∧ (given [0x20#8 ++ 0#120, 0#128, 0x03#8 ++ 0#120] running).err = .none
    ∧ noReset (given [0x20#8 ++ 0#120, 0#128, 0x03#8 ++ 0#120] running)
    ∧ exec .abt validated = .next (effect .abt validated) ∧ validated.err = .none ∧ (effect .abt validated).err ≠ .none
    ∧ exec .start (powered .high) = .next (effect .start (powered .high)) ∧ (powered .high).err = .none
    ∧ (effect .start (powered .high)).err ≠ .none :=
  ⟨rfl, rfl, noReset_given _ (by simp; decide), rfl, rfl, by decide, rfl, rfl, by decide⟩
theorem witness_TerminalStatesHoldUntilReset :
    (given [0x02#8 ++ 0#120, 0x14#8 ++ 0#120] aborted).mode = .aborted
    ∧ noReset (given [0x02#8 ++ 0#120, 0x14#8 ++ 0#120] aborted)
    ∧ finished.mode = .finished ∧ noReset (given [0x21#8 ++ 0#120] finished) :=
  ⟨rfl, noReset_given _ (by simp; decide), rfl, noReset_given _ (by simp; decide)⟩
theorem witness_KeysAreRotatedByTheRoundsOfTheRun :
    validated.mode = .keysValidated ∧ validated.warm = false ∧ validated.s1 = validated.s1Orig
    ∧ validated.s2 = validated.s2Orig ∧ noReset (given [0x20#8 ++ 0#120] validated) :=
  ⟨rfl, rfl, rfl, rfl, noReset_given _ (by simp; decide)⟩
/-- One engine in a run, another after an abort, the same keys and the same F-bits ahead. -/
theorem witness_ResetMakesTheRunRepeatable :
    ∃ (ws : List CommandWord) (a b : State), a.mode = .running ∧ b.mode = .aborted ∧ a.cfg = b.cfg
      ∧ a.s1Orig = b.s1Orig ∧ a.s2Orig = b.s2Orig ∧ a.ld1 = b.ld1 ∧ a.ld2 = b.ld2
      ∧ (∀ n, a.fBit (a.fpos + n) = b.fBit (b.fpos + n)) ∧ a.port = encode .rst :: ws ∧ b.port = encode .rst :: ws
      ∧ 1 ≤ ws.length :=
  ⟨[encode .start], given [encode .rst, encode .start] running,
    given [encode .rst, encode .start] { aborted with fpos := 1911 },
    rfl, rfl, rfl, rfl, rfl, rfl, rfl, fun _ => rfl, rfl, rfl, by decide⟩

/-- The invariant holds in a state as in `RUNNING`. -/
theorem witness_EveryStepKeepsTheInvariant : running.Inv := by
  have h1 : isRotation 1 running.s1Orig running.s1 := isRotation_ringShift (isRotation_zero _)
  have h2 : isRotation 1 running.s2Orig running.s2 := isRotation_ringShift (isRotation_zero _)
  exact
    { err_iff_aborted := by decide
      err_not_length := by decide
      fresh_before_run := by decide
      warm_when_running := by decide
      restored_when_validated := by decide
      valid_in_run := by decide +kernel
      s1_rotated := ⟨1, h1⟩
      s2_rotated := ⟨1, h2⟩
      lockstep_in_run := fun _ => ⟨1, h1, h2⟩
      s1_empty := by decide
      s2_empty := by decide }

/-- A vector that is read, with the first and the last field of each kind and a `NONE`; and one that is refused. -/
theorem witness_ProfileVectorIsReadBack :
    profileOfCfg ltkCfgA = some profileA
    ∧ (0 < 27 ∧ 26 < 27 ∧ profileA.d[0] = none ∧ profileA.d[8] = some 17)
    ∧ (0 < 37 ∧ 36 ≤ ((BitVec.ofNat 222 36).extractLsb' (6 * 0) 6).toNat
        ∧ ((BitVec.ofNat 222 36).extractLsb' (6 * 0) 6 = 63#6 → 0 < 27 ∨ 0 = 36)) := by decide +kernel
/-- A configuration that is allowed, and one refused for each of the two reasons, at the edge. -/
theorem witness_ConfigurationOutOfRangeIsRefused :
    configure 1#1 10#4 (Vector.replicate 11 ltkCfgA) 0#64 0#36
        = some { configA .low with ltkId := 10, z := 0#64, uInit := 0#36 }
    ∧ 11 ≤ (11#4).toNat ∧ (∃ j : Fin 11, profileOfCfg (Vector.replicate 11 (BitVec.ofNat 222 36))[j] = none) := by
  refine ⟨by decide +kernel, by decide, ⟨0, by decide +kernel⟩⟩
/-- Lines of every form at the edges: units 31 and 32, buffers of 15, 14 and no bytes, the first and the last byte, register
numbers 0 to 3, and an empty list of units. -/
theorem witness_AssembledLinesDecodeToTheirCommands :
    ((Line.unit .enc 31).wellFormed = true ∧ (Line.unit .enc 32).wellFormed = false ∧ 31 < 32 ∧ ¬ 32 < 32)
    ∧ assembleLine (.unit .enc 31) = some [0x21#8 ++ 31#120]
    ∧ (∃ bytes : List Byte, bytes.length = 15 ∧ 0 < bytes.length ∧ 14 < bytes.length
        ∧ expandLine (.key .ldk2 bytes) = some [.ldk2 keyopA]
        ∧ expandLine (.keys bytes bytes) = some [.ldk1 keyopA, .ldk2 keyopA])
    ∧ ((List.replicate 14 0x01#8).length ≠ 15 ∧ ([] : List Byte).length ≠ 15)
    ∧ expandLine (.kb 0) = none ∧ expandLine (.kb 1) = some [.kb1] ∧ expandLine (.kb 2) = some [.kb2]
    ∧ expandLine (.kb 3) = none
    ∧ (([0, 31] : List Nat) ≠ [] ∧ (∀ u ∈ [0, 31], u < 32) ∧ ¬ ∀ u ∈ [0, 32], u < 32)
    ∧ expandLine (.encs []) = none := by
  refine ⟨by decide, by decide +kernel,
    ⟨[0x01, 0x02, 0x03, 0x04, 0x05, 0x06, 0x07, 0x08, 0x09, 0x0A, 0x0B, 0x0C, 0x0D, 0x0E, 0x10], by decide +kernel⟩,
    by decide, by decide, by decide, by decide, by decide, by decide, by decide⟩

/-- The three line forms of rule R47, and the first and the last register number of rule R48, against the spec's words. -/
theorem test_expand_lines :
    assembleLine (.plain .start) = some [0x02#8 ++ 0#120] ∧ expandLine (.plain .enc) = none
    ∧ expandLine (.unit .dec 0) = some [.dec 0#5] ∧ expandLine (.unit .dec 32) = none
    ∧ expandLine (.shk 1) = some [.shk1] ∧ expandLine (.shk 3) = none := by decide +kernel

end Sys2Proof.Tests
end

section
/-!
The statements of 20_memory.md: what a step runs (rule R36), which F-bits a command consumes (rule R37), what the words still on
the port can change (rule R39), and where the bytes of a key buffer land (rules R32 and R33).
-/

namespace Sys2Proof.Machine

/-! ### Frames of what a command and a word do -/

/-- A response writes the response port alone (rule R46). -/
theorem respond_frame (st : RespStatus) (dout : KVal) (s : State) : unchangedExcept [.responses] s (respond st dout s) := by
  simp [unchangedExcept_iff]

/-- An illegal word moves the two ports alone (rule R99). -/
theorem refuseIllegal_takeWord_frame (s : State) : unchangedExcept [.port, .responses] s (refuseIllegal (takeWord s)) := by
  simp [unchangedExcept_iff]

/-- The validation inside START writes MODE and ERR, and answers (rule R90). -/
theorem validateKeys_frame (s : State) : unchangedExcept [.mode, .err, .responses] s (validateKeys s) := by
  rcases validateKeys_cases s with ⟨-, h⟩ | ⟨-, -, h⟩ | ⟨-, -, h⟩ <;> rw [h] <;> simp [unchangedExcept_iff]

/-- CHK, KB1 and KB2 read: they answer in every mode and do nothing else (rules R55, R58, R59). -/
theorem exec_read {i : Instr} (h : i ∈ [Instr.kb1, .kb2, .chk]) (s : State) :
    ∃ dout, exec i s = .next (respond .ok dout s) := by
  simp only [List.mem_cons, List.not_mem_nil, or_false] at h
  rcases h with rfl | rfl | rfl <;> exact ⟨_, rfl⟩

/-! ### The F-bits a command consumes -/

/-- No command changes a bit of the F stream (rule R24). -/
@[simp] theorem effect_fKnown (i : Instr) (s : State) : (effect i s).fKnown = s.fKnown := by
  cases i with
  | drv => exact (finishCharacter_done s _).fKnown
  | enc ch => exact (finishCharacter_done s _).fKnown
  | dec ch => exact (finishCharacter_done s _).fKnown
  | start => exact validateKeys_frame (restore s) .fKnown (by decide)
  | _ => rfl

/-- An accepted derivation consumes one F-bit per round, every other accepted command none (rules R37 and R68). -/
theorem effect_fpos (i : Instr) (s : State) :
    (effect i s).fpos = s.fpos + if derives i.mnemonic = true then warmupLeft s + 1778 else 0 := by
  cases i with
  | drv => exact (finishCharacter_done s _).fpos
  | enc ch => exact (finishCharacter_done s _).fpos
  | dec ch => exact (finishCharacter_done s _).fpos
  | start => exact validateKeys_frame (restore s) .fpos (by decide)
  | _ => rfl

/-- The rounds of a derivation, by WARM (rules R70 and R72). -/
theorem warmupLeft_add_roundsPerChar (s : State) :
    warmupLeft s + 1778 = if s.warm = true then 1778 else 133 + 1778 := by
  unfold warmupLeft
  split <;> rfl

/-- The F stream and FPOS after any command, accepted or refused (rule R37). -/
theorem exec_fBits (i : Instr) (s : State) :
    ∃ t, exec i s = .next t ∧ t.fKnown = s.fKnown
      ∧ t.fpos = s.fpos + if derives i.mnemonic = true ∧ s.mode ∈ legalIn i.mnemonic then warmupLeft s + 1778 else 0 := by
  by_cases hm : s.mode ∈ legalIn i.mnemonic
  · exact ⟨_, exec_accepted hm, effect_fKnown i s, by simp only [effect_fpos, hm, and_true]⟩
  · exact ⟨_, exec_refused hm, rfl, by simp [hm]⟩

/-- Settles O13: `exec_fBits` counts the F-bits of a command; the reads and the illegal words only answer. -/
theorem fBitsAreConsumedByDerivationsOnly : Obligations.FBitsAreConsumedByDerivationsOnly := by
  refine ⟨fun i s => ?_, fun i s hi => ?_, fun s w rest e hp hd => ?_⟩
  · obtain ⟨t, he, hk, hf⟩ := exec_fBits i s
    rw [warmupLeft_add_roundsPerChar] at hf
    exact ⟨t, he, fBit_of_same hk, hf⟩
  · obtain ⟨dout, he⟩ := exec_read hi s
    exact ⟨_, he, respond_frame .ok dout s⟩
  · exact ⟨_, step_illegal hp hd, rfl, refuseIllegal_takeWord_frame s⟩

/-! ### The words still on the port -/

/-- The oldest word on the port is taken off it. -/
theorem takeWord_of_port {s : State} {w : CommandWord} {rest : List CommandWord} (h : s.port = w :: rest) :
    takeWord s = { s with port := rest } := by
  simp [takeWord, h]

/-- A command does the same whatever words are on the port, and leaves them there (rule R39). -/
theorem exec_set_port (i : Instr) (s : State) :
    ∃ t : State, ∀ p, exec i { s with port := p } = .next { t with port := p } := by
  by_cases hm : s.mode ∈ legalIn i.mnemonic
  · exact ⟨effect i s, fun p => by rw [← effect_set_port]; exact exec_accepted hm⟩
  · exact ⟨refuse .badMode s, fun p => exec_refused hm⟩

/-- A step takes the oldest word and does the same whatever words follow it (rule R39). -/
theorem step_set_port (w : CommandWord) (s : State) :
    ∃ t : State, ∀ rest, step { s with port := w :: rest } = .next { t with port := rest } := by
  cases hd : decode w with
  | error e => exact ⟨refuseIllegal s, fun rest => step_illegal rfl hd⟩
  | ok i =>
    obtain ⟨t, ht⟩ := exec_set_port i s
    exact ⟨t, fun rest => (step_command rfl hd).trans (ht rest)⟩

/-- A run over the first words on the port does the same whatever words follow them (rule R39). -/
theorem run_set_port (ws : List CommandWord) (s : State) :
    ∃ t : State, ∀ rest, run ws.length { s with port := ws ++ rest } = .next { t with port := rest } := by
  induction ws generalizing s with
  | nil => exact ⟨s, fun _ => rfl⟩
  | cons w ws ih =>
    obtain ⟨t, hstep⟩ := step_set_port w s
    obtain ⟨u, hrun⟩ := ih t
    exact ⟨u, fun rest => (run_succ (hstep (ws ++ rest))).trans (hrun rest)⟩

/-- Settles O14: by `run_set_port` both runs end in one state, but for the words left. -/
theorem laterCommandsHaveNoEffectBefore : Obligations.LaterCommandsHaveNoEffectBefore := by
  intro ws rest rest' s
  obtain ⟨t, ht⟩ := run_set_port ws s
  exact ⟨_, _, ht rest, ht rest', rfl, rfl, by simp [unchangedExcept_iff]⟩

/-- Settles O6: by `step_command`, the word taken being the one the step decodes. -/
theorem stepRunsTheDecodedCommand : Obligations.StepRunsTheDecodedCommand := by
  intro s w rest i hp hd
  rw [step_command hp hd, takeWord_of_port hp]

/-! ### The bytes of a key buffer -/

/-- Bits of a field are bits of the value, from the field's place on. -/
theorem extractLsb'_field {w : Nat} (x : BitVec w) {a b n m : Nat} (h : b + m ≤ n) :
    (x.extractLsb' a n).extractLsb' b m = x.extractLsb' (a + b) m := by
  ext i hi
  simp only [BitVec.getElem_extractLsb', BitVec.getLsbD_extractLsb']
  rw [decide_eq_true (by omega), Bool.true_and, Nat.add_assoc]

/-- Byte `m` of word `j` stands in the ring at the word's place (rule R11). -/
theorem keyWord_byte (r : KeyRing) (j : Nat) {m : Nat} (hm : m < 3) :
    (keyWord r j).extractLsb' (8 * m) 8 = r.extractLsb' (24 * (4 - j) + 8 * m) 8 :=
  extractLsb'_field r (by omega)

/-- Byte `b[i]` of a key buffer is `KEYOP[8i+7:8i]` (rule R42). -/
theorem keyopOfBytes_byte {bytes : List Byte} (hl : bytes.length = 15) {i : Nat} (hi : i < bytes.length) :
    (keyopOfBytes bytes).extractLsb' (8 * i) 8 = bytes[i] := by
  apply BitVec.eq_of_getLsbD_eq
  intro b hb
  rw [BitVec.getLsbD_extractLsb', keyopOfBytes, BitVec.getLsbD_ofNat, decide_eq_true hb, decide_eq_true (by omega),
    Bool.true_and, Bool.true_and, testBit_keyopNat bytes i b hb hi]

/-- Byte `b[i]` of a loaded buffer is byte `i mod 3` of word `i div 3` (rules R32 and R33). -/
theorem keyWord_byte_of_load {bytes : List Byte} (hl : bytes.length = 15) {i : Nat} (hi : i < bytes.length) :
    (keyWord (ringOfKeyop (keyopOfBytes bytes)) (i / 3)).extractLsb' (8 * (i % 3)) 8 = bytes[i] := by
  rw [keyWord_ringOfKeyop _ _ (by omega), extractLsb'_field _ (by omega), show 24 * (i / 3) + 8 * (i % 3) = 8 * i by omega,
    keyopOfBytes_byte hl hi]

/-- The ring value of rule R33's example: `b[0] = 1` alone. -/
theorem ringOfKeyop_first_byte_one :
    ringOfKeyop (keyopOfBytes (0x01#8 :: List.replicate 14 0x00#8)) = 1#120 <<< 96 := by decide

/-- LDK1 in `IDLE` puts the ring value of its operand in S1 (rule R53). -/
theorem exec_ldk1_s1 (k : KeyRing) {s : State} (hs : s.mode = .idle) :
    ∃ t, exec (.ldk1 k) s = .next t ∧ t.s1 = ringOfKeyop k :=
  ⟨_, exec_accepted (by simp [hs, legalIn, Instr.mnemonic]), rfl⟩

/-- LDK2 in `IDLE` puts the ring value of its operand in S2 (rule R54). -/
theorem exec_ldk2_s2 (k : KeyRing) {s : State} (hs : s.mode = .idle) :
    ∃ t, exec (.ldk2 k) s = .next t ∧ t.s2 = ringOfKeyop k :=
  ⟨_, exec_accepted (by simp [hs, legalIn, Instr.mnemonic]), rfl⟩

/-- Settles O18: both loads write the ring value of their operand, whose bytes `keyWord_byte_of_load` places. -/
theorem keyBytesLandInTheirWords : Obligations.KeyBytesLandInTheirWords := by
  refine ⟨fun bytes s i hi hl hs => ?_, fun s hs => ?_⟩
  · obtain ⟨t1, he1, h1⟩ := exec_ldk1_s1 (keyopOfBytes bytes) hs
    obtain ⟨t2, he2, h2⟩ := exec_ldk2_s2 (keyopOfBytes bytes) hs
    have hword := keyWord_byte_of_load hl hi
    have hring := (keyWord_byte _ (i / 3) (Nat.mod_lt i (by omega))).symm.trans hword
    exact ⟨t1, t2, he1, he2, by rw [h1, hring], by rw [h2, hring], by rw [h1, hword]⟩
  · obtain ⟨t, he, h⟩ := exec_ldk1_s1 (keyopOfBytes (0x01#8 :: List.replicate 14 0x00#8)) hs
    exact ⟨t, he, h.trans ringOfKeyop_first_byte_one⟩

end Sys2Proof.Machine
end

section
/-!
The statements of 30_encoding.md: the encoder and the decoder are inverse (rules R40 to R43), match and mask (rule R43), the
illegal words (rules R44 and R99), the word that runs next (rules R39 and R40), the one response of every word (rule R46), and
the lines of the assembler (rules R47 and R48).
-/

namespace Sys2Proof

/-! ### The encoder and the decoder are inverse -/

/-- The fields of a command's word, whatever the command (rules R41 and R43). -/
theorem encode_fields : (i : Instr) → Laws.Encodes.Statement i
  | .rst => Laws.Encodes.rst
  | .start => Laws.Encodes.start
  | .stop => Laws.Encodes.stop
  | .abt => Laws.Encodes.abt
  | .chk => Laws.Encodes.chk
  | .ldk1 keyop => Laws.Encodes.ldk1 keyop
  | .ldk2 keyop => Laws.Encodes.ldk2 keyop
  | .shk1 => Laws.Encodes.shk1
  | .shk2 => Laws.Encodes.shk2
  | .kb1 => Laws.Encodes.kb1
  | .kb2 => Laws.Encodes.kb2
  | .rsk => Laws.Encodes.rsk
  | .drv => Laws.Encodes.drv
  | .enc ch => Laws.Encodes.enc ch
  | .dec ch => Laws.Encodes.dec ch

/-- A command is built again from its row and its operand field; only a unit is not the field itself (rules R41 and R42). -/
theorem build_operand (i : Instr) : i.mnemonic.build i.operand = i := by
  cases i with
  | enc ch => exact congrArg Instr.enc (unit_readBack ch)
  | dec ch => exact congrArg Instr.dec (unit_readBack ch)
  | _ => rfl

theorem decode_encode (i : Instr) : decode (encode i) = .ok i := by
  obtain ⟨hopc, hopd, hres, -⟩ := encode_fields i
  exact decode_ok_iff.2 ⟨i.mnemonic, hopc, hres, by rw [hopd, build_operand]⟩

/-- Settles O2: by `decode_encode`, which asks nothing of the command. -/
theorem decodeOfEncodeIsTheCommand : Obligations.DecodeOfEncodeIsTheCommand :=
  fun i _ => decode_encode i

/-- An operand field that sets no reserved bit is that of the command built from it (rules R41 and R42). -/
theorem operand_build {m : Mnemonic} {d : BitVec 120} (h : m.format.reservedZero d = true) : (m.build d).operand = d := by
  cases m with
  | ldk1 => rfl
  | ldk2 => rfl
  | enc => exact operand_of_unit (beq_iff_eq.1 h)
  | dec => exact operand_of_unit (beq_iff_eq.1 h)
  | _ => exact (beq_iff_eq.1 h).symm

/-- Settles O3: the row and the operand field of the decoded command are the word's two fields. -/
theorem encodeOfDecodeIsTheWord : Obligations.EncodeOfDecodeIsTheWord := by
  intro w i h
  obtain ⟨m, hopc, hres, rfl⟩ := decode_ok_iff.1 h
  rw [encode, mnemonic_build, operand_build hres, ← hopc, append_fields]

/-! ### Match and mask -/

/-- The bits of the operand field that a row of the format fixes (rule R41). -/
def Format.operandMask : Format → BitVec 120
  | .n => BitVec.allOnes 120
  | .k => 0#120
  | .c => BitVec.allOnes 115 ++ 0#5

/-- A row's mask fixes the opcode and the reserved bits of the operand field (rule R43). -/
theorem mask_eq_append (f : Format) : f.mask = BitVec.allOnes 8 ++ f.operandMask := by cases f <;> decide

/-- Two words of an opcode and an operand field are the same exactly when both fields are. -/
theorem opcode_append_operand_inj {o o' : BitVec 8} {d d' : BitVec 120} : o ++ d = o' ++ d' ↔ o = o' ∧ d = d' := by
  constructor
  · intro h
    exact ⟨by rw [← opcField_append o d, h, opcField_append], by rw [← opdField_append o d, h, opdField_append]⟩
  · rintro ⟨rfl, rfl⟩; rfl

/-- A mask of ones above zeros leaves nothing exactly when the bits above are 0. -/
theorem and_allOnes_append_zero_iff {a b : Nat} (x : BitVec (a + b)) :
    x &&& (BitVec.allOnes a ++ 0#b) = 0#(a + b) ↔ x.extractLsb' b a = 0#a := by
  have hx : x &&& (BitVec.allOnes a ++ 0#b) = x.extractLsb' b a ++ 0#b := by
    nth_rw 1 [← BitVec.extractLsb'_append_extractLsb' (x := x)]
    rw [BitVec.and_append, BitVec.and_allOnes, BitVec.and_zero]
  rw [hx, ← BitVec.zero_append_zero, BitVec.append_left_inj]

/-- The reserved bits are 0 exactly when the mask leaves nothing of the operand field. -/
theorem and_operandMask_eq_zero_iff (f : Format) (d : BitVec 120) :
    d &&& f.operandMask = 0#120 ↔ f.reservedZero d = true := by
  cases f with
  | n => rw [Format.operandMask, BitVec.and_allOnes, Format.reservedZero, beq_iff_eq]
  | k => exact iff_of_true BitVec.and_zero rfl
  | c => exact (and_allOnes_append_zero_iff (a := 115) (b := 5) d).trans beq_iff_eq.symm

/-- A word matches a row exactly when the row's opcode and reserved bits are the word's (rule R43). -/
theorem and_mask_eq_matchWord_iff (m : Mnemonic) (w : CommandWord) :
    w &&& m.mask = m.matchWord ↔ opcField w = m.opcode ∧ m.format.reservedZero (opdField w) = true := by
  have hw : w &&& m.mask = opcField w ++ (opdField w &&& m.format.operandMask) := by
    rw [Mnemonic.mask, mask_eq_append]
    nth_rw 1 [← append_fields w]
    rw [BitVec.and_append, BitVec.and_allOnes]
  rw [hw, Mnemonic.matchWord, opcode_append_operand_inj, and_operandMask_eq_zero_iff]

/-- A word decodes to a command of a row exactly when the row's opcode and reserved bits are the word's (rules R41 to R44). -/
theorem decode_row_iff (m : Mnemonic) (w : CommandWord) :
    (∃ i, decode w = .ok i ∧ i.mnemonic = m) ↔ opcField w = m.opcode ∧ m.format.reservedZero (opdField w) = true := by
  constructor
  · rintro ⟨i, hd, rfl⟩
    obtain ⟨m, hopc, hres, rfl⟩ := decode_ok_iff.1 hd
    rw [mnemonic_build]
    exact ⟨hopc, hres⟩
  · rintro ⟨hopc, hres⟩
    exact ⟨_, decode_ok_iff.2 ⟨m, hopc, hres, rfl⟩, mnemonic_build m _⟩

/-- The match of a row, as the spec writes it (rule R43). -/
theorem matchWord_eq_shiftLeft (m : Mnemonic) : m.matchWord = m.opcode.setWidth 128 <<< 120 := by cases m <;> decide

/-- Settles O4: the written rows are the model's; a match and a decoded command say the same of the word's two fields. -/
theorem matchAndMaskSelectTheCommand : Obligations.MatchAndMaskSelectTheCommand := by
  intro row hrow w
  have hrow : row ∈ Mnemonic.all.map fun m => (m, m.opcode, m.mask) := hrow
  obtain ⟨m, -, rfl⟩ := List.mem_map.1 hrow
  rw [← matchWord_eq_shiftLeft, and_mask_eq_matchWord_iff, decode_row_iff]

/-! ### Illegal words -/

theorem Mnemonic.mem_all (m : Mnemonic) : m ∈ Mnemonic.all := by cases m <;> decide

theorem Mnemonic.opcode_injective : Function.Injective Mnemonic.opcode := fun m m' h =>
  Option.some.inj (by rw [← ofOpcode_opcode m, h, ofOpcode_opcode])

/-- The opcodes of the rows of one format (rules R41 and R43). -/
def Format.opcodes (f : Format) : List (BitVec 8) := (Mnemonic.all.filter fun m => m.format == f).map Mnemonic.opcode

theorem opcode_mem_opcodes_iff (m : Mnemonic) (f : Format) : m.opcode ∈ f.opcodes ↔ m.format = f := by
  rw [Format.opcodes, List.mem_map_of_injective Mnemonic.opcode_injective, List.mem_filter, beq_iff_eq]
  exact and_iff_right m.mem_all

/-- A format has a reserved bit set in two ways: any bit in format N, a bit of `CW[119:5]` in format C (rule R41). -/
theorem reservedZero_eq_false_iff (f : Format) (d : BitVec 120) :
    f.reservedZero d = false ↔ f = .n ∧ d ≠ 0#120 ∨ f = .c ∧ d.extractLsb' 5 115 ≠ 0#115 := by
  cases f <;> simp [Format.reservedZero]

/-- A word with no row's opcode is illegal (rule R44). -/
theorem decode_error_of_unassigned {w : CommandWord} (h : opcField w ∉ Mnemonic.all.map Mnemonic.opcode) :
    ∃ e, decode w = .error e := by
  refine decode_error_iff.2 fun i hd => h ?_
  obtain ⟨m, hopc, -, -⟩ := decode_ok_iff.1 hd
  exact hopc ▸ List.mem_map_of_mem m.mem_all

/-- A word with a row's opcode is illegal exactly when a bit that the row reserves is set (rule R44). -/
theorem decode_error_iff_of_opcode {w : CommandWord} {m : Mnemonic} (h : opcField w = m.opcode) :
    (∃ e, decode w = .error e) ↔ m.format.reservedZero (opdField w) = false := by
  rw [decode_error_iff, ← Bool.not_eq_true]
  constructor
  · exact fun hn hres => hn _ (decode_ok_iff.2 ⟨m, h, hres, rfl⟩)
  · intro hres i hd
    obtain ⟨m', hopc, hres', -⟩ := decode_ok_iff.1 hd
    rw [Mnemonic.opcode_injective (hopc.symm.trans h)] at hres'
    exact hres hres'

/-- The illegal words: an opcode of no row, or of a row of format N or C that reserves a bit that is set (rule R44). -/
theorem decode_error_iff_fields (w : CommandWord) :
    (∃ e, decode w = .error e) ↔
      opcField w ∉ Mnemonic.all.map Mnemonic.opcode
      ∨ (opcField w ∈ Format.n.opcodes ∧ opdField w ≠ 0#120)
      ∨ (opcField w ∈ Format.c.opcodes ∧ (opdField w).extractLsb' 5 115 ≠ 0#115) := by
  by_cases hopc : opcField w ∈ Mnemonic.all.map Mnemonic.opcode
  · obtain ⟨m, -, hm⟩ := List.mem_map.1 hopc
    rw [or_iff_right (not_not_intro hopc), decode_error_iff_of_opcode hm.symm, reservedZero_eq_false_iff, ← hm,
      opcode_mem_opcodes_iff, opcode_mem_opcodes_iff]
  · exact iff_of_true (decode_error_of_unassigned hopc) (.inl hopc)

end Sys2Proof

namespace Sys2Proof.Machine

/-- Settles O5: the written lists are the opcodes of the rows, and `decode_error_iff_fields` says which words are illegal. -/
theorem illegalWordsAreRefusedWithNoEffect : Obligations.IllegalWordsAreRefusedWithNoEffect := by
  refine ⟨fun w => ?_, fun s w rest e hp hd => ?_⟩
  · have hreserved : (opdField w).extractLsb' 5 115 = w.extractLsb' 5 115 := extractLsb'_field w (by omega)
    rw [← hreserved]
    exact decode_error_iff_fields w
  · exact ⟨_, step_illegal hp hd, by simp [hp], by simp [answered], refuseIllegal_takeWord_frame s⟩

/-! ### Table words -/

theorem except_toOption_eq_some_iff {ε α : Type} {x : Except ε α} {a : α} : x.toOption = some a ↔ x = .ok a := by
  cases x <;> simp [Except.toOption]

/-- What the decoder reads from a table row is what it reads from the command word of that row (rule R40). -/
theorem decode_of_decodeTableWord {nbits w : Nat} {i : Instr} (h : decodeTableWord nbits w = some i) :
    decode (tableWord nbits w) = .ok i := by
  unfold decodeTableWord at h
  split at h
  · exact except_toOption_eq_some_iff.1 h
  · cases h

/-- A number below `2 ^ 128` is a whole table row. -/
theorem decodeTableWord_toNat (w : CommandWord) : decodeTableWord 128 w.toNat = (decode w).toOption := by
  have hw : w.toNat % 2 ^ 128 = w.toNat := Nat.mod_eq_of_lt w.isLt
  rw [decodeTableWord, hw, if_pos w.isLt, BitVec.ofNat_toNat, BitVec.setWidth_eq]

/-- The word presented first is the one the next step takes, and the state behind it is as before (rules R36 and R39). -/
theorem step_presentFirst {w : CommandWord} {i : Instr} (hd : decode w = .ok i) (s : State) :
    step (presentFirst w s) = exec i s :=
  step_command (presentFirst_port w s) hd

/-- Settles O8: a row of 128 bits is its command word, and the word presented first is the one the step takes. -/
theorem wordPresentedFirstRunsNext : Obligations.WordPresentedFirstRunsNext := by
  refine ⟨fun w i => ?_, fun s nbits w i h => ?_⟩
  · rw [decodeTableWord_toNat, except_toOption_eq_some_iff]
  · exact step_presentFirst (decode_of_decodeTableWord h) s

/-! ### The one response -/

theorem boolData_lt (b : Bool) : (boolData b).toNat < 2 := by cases b <;> decide

theorem unitData_lt (c : CharUnit) : (unitData c).toNat < 2 ^ 5 := by
  rw [unitData, BitVec.toNat_setWidth_of_le (by omega)]
  exact c.isLt

/-- An accepted command answers `ST_OK` once, with data of its width (rule R46). -/
theorem effect_responses (i : Instr) (s : State) :
    ∃ dout : KVal, dout.toNat < 2 ^ dataBits i.mnemonic ∧ (effect i s).responses = s.responses ++ [respWord .ok dout] := by
  cases i with
  | drv => exact ⟨_, (derive s).1.isLt, (finishCharacter_done s _).responses⟩
  | enc ch => exact ⟨_, unitData_lt _, (finishCharacter_done s _).responses⟩
  | dec ch => exact ⟨_, unitData_lt _, (finishCharacter_done s _).responses⟩
  | start =>
    rcases validateKeys_cases (restore s) with ⟨-, h⟩ | ⟨-, -, h⟩ | ⟨-, -, h⟩ <;>
      exact ⟨_, boolData_lt _, congrArg State.responses h⟩
  | chk => exact ⟨_, boolData_lt _, rfl⟩
  | ldk1 k => exact ⟨_, boolData_lt _, rfl⟩
  | ldk2 k => exact ⟨_, boolData_lt _, rfl⟩
  | kb1 => exact ⟨_, boolData_lt _, rfl⟩
  | kb2 => exact ⟨_, boolData_lt _, rfl⟩
  | _ => exact ⟨0#13, by decide, rfl⟩

@[simp] theorem respWord_status (st : RespStatus) (dout : KVal) : (respWord st dout).extractLsb' 14 2 = st.code := by
  rw [respWord, BitVec.extractLsb'_append_eq_of_le (by decide)]
  exact BitVec.extractLsb'_append_eq_left

@[simp] theorem respWord_data (st : RespStatus) (dout : KVal) : (respWord st dout).extractLsb' 0 13 = dout :=
  BitVec.extractLsb'_append_eq_right

@[simp] theorem respWord_bit13 (st : RespStatus) (dout : KVal) : (respWord st dout).getLsbD 13 = false := by
  change BitVec.getLsbD (w := 2 + 1 + 13) (st.code ++ 0#1 ++ dout) 13 = false
  rw [BitVec.getLsbD_append, if_neg (by decide), BitVec.getLsbD_append, if_pos (by decide)]
  exact BitVec.getLsbD_zero

/-- The step of a word answers once, with data of the command's width; any status but `ST_OK` comes with data 0 and moves the two
ports alone (rules R46, R99 and R100). -/
theorem step_answers {s : State} {w : CommandWord} {rest : List CommandWord} (hp : s.port = w :: rest) :
    ∃ t st dout, step s = .next t ∧ answered (respWord st dout) s t
      ∧ (st ≠ .ok → dout = 0#13 ∧ unchangedExcept [.port, .responses] s t)
      ∧ ∀ i, decode w = .ok i → dout.toNat < 2 ^ dataBits i.mnemonic := by
  cases hd : decode w with
  | error e =>
    exact ⟨_, .illegal, 0#13, step_illegal hp hd, rfl, fun _ => ⟨rfl, refuseIllegal_takeWord_frame s⟩, nofun⟩
  | ok i =>
    rw [step_command hp hd]
    by_cases hm : (takeWord s).mode ∈ legalIn i.mnemonic
    · obtain ⟨dout, hlt, hr⟩ := effect_responses i (takeWord s)
      exact ⟨_, .ok, dout, exec_accepted hm, hr, fun h => absurd rfl h, fun _ h => Except.ok.inj h ▸ hlt⟩
    · exact ⟨_, .badMode, 0#13, exec_refused hm, rfl, fun _ => ⟨rfl, by simp [unchangedExcept_iff]⟩,
        fun _ _ => Nat.two_pow_pos _⟩

/-- Settles O12: the response of `step_answers`, field by field. -/
theorem everyWordIsAnsweredOnce : Obligations.EveryWordIsAnsweredOnce := by
  intro s w rest hp
  obtain ⟨t, st, dout, hs, ha, href, hlt⟩ := step_answers hp
  refine ⟨t, respWord st dout, hs, by rw [step_port hs, hp, List.tail_cons], ha, respWord_bit13 st dout, ?_, ?_, ?_⟩
  · rw [respWord_status]; cases st <;> decide
  · rw [respWord_status, respWord_data]
    exact fun h => href fun hok => h (by rw [hok]; rfl)
  · rwa [respWord_data]

/-! ### The lines of the assembler -/

theorem expandLine_eq_none_iff (l : Line) : expandLine l = none ↔ l.wellFormed = false := by
  rw [expandLine, ← Bool.not_eq_true]
  exact ite_eq_right_iff.trans (by simp)

theorem assembleLine_eq_none_iff (l : Line) : assembleLine l = none ↔ l.wellFormed = false := by
  rw [assembleLine, Option.map_eq_none_iff, expandLine_eq_none_iff]

/-- The words of a line decode, in order, to the commands it expands to (rules R45 and R47). -/
theorem decode_assembleLine {l : Line} {ws : List CommandWord} (h : assembleLine l = some ws) :
    ∃ is, expandLine l = some is ∧ ws.map decode = is.map .ok := by
  obtain ⟨is, he, rfl⟩ := Option.map_eq_some_iff.1 h
  exact ⟨is, he, by rw [List.map_map]; exact List.map_congr_left fun i _ => decode_encode i⟩

/-- A key buffer is one of exactly 15 bytes (rule R97). -/
theorem keyBufferOk_iff (bytes : List Byte) : keyBufferOk bytes = true ↔ bytes.length = 15 := beq_iff_eq

theorem unitOk_iff (u : Nat) : unitOk u = true ↔ u < 32 := decide_eq_true_iff

/-! #### The three line forms of rule R47 -/

theorem expandLine_plain (m : Mnemonic) :
    expandLine (.plain m) = if m.format = .n then some [m.build 0#120] else none :=
  if_congr beq_iff_eq rfl rfl

theorem expandLine_key (m : Mnemonic) (bytes : List Byte) :
    expandLine (.key m bytes) = if m.format = .k ∧ bytes.length = 15 then some [m.build (keyopOfBytes bytes)] else none :=
  if_congr (Bool.and_eq_true_iff.trans (and_congr beq_iff_eq (keyBufferOk_iff bytes))) rfl rfl

theorem expandLine_unit (m : Mnemonic) (u : Nat) :
    expandLine (.unit m u) = if m.format = .c ∧ u < 32 then some [m.build (BitVec.ofNat 120 u)] else none :=
  if_congr (Bool.and_eq_true_iff.trans (and_congr beq_iff_eq (unitOk_iff u))) rfl rfl

/-- A plain line is the command of its mnemonic in format N, and the other two forms are ill-formed there. -/
theorem expandLine_of_format_n {m : Mnemonic} (h : m.format = .n) :
    expandLine (.plain m) = some [m.build 0#120] ∧ (∀ bytes, expandLine (.key m bytes) = none)
      ∧ ∀ u, expandLine (.unit m u) = none := by
  simp [expandLine_plain, expandLine_key, expandLine_unit, h]

/-- A key line is the command of its mnemonic in format K, with exactly 15 bytes (rule R97). -/
theorem expandLine_of_format_k {m : Mnemonic} (h : m.format = .k) :
    expandLine (.plain m) = none ∧ (∀ u, expandLine (.unit m u) = none)
      ∧ ∀ bytes, expandLine (.key m bytes) = if bytes.length = 15 then some [m.build (keyopOfBytes bytes)] else none := by
  simp [expandLine_plain, expandLine_key, expandLine_unit, h]

/-- A unit line is the command of its mnemonic in format C, with a unit below 32. -/
theorem expandLine_of_format_c {m : Mnemonic} (h : m.format = .c) :
    expandLine (.plain m) = none ∧ (∀ bytes, expandLine (.key m bytes) = none)
      ∧ ∀ u, expandLine (.unit m u) = if u < 32 then some [m.build (BitVec.ofNat 120 u)] else none := by
  simp [expandLine_plain, expandLine_key, expandLine_unit, h]

/-- The unit of an operand field given as a number (rule R41). -/
theorem unit_ofNat (u : Nat) : (BitVec.ofNat 120 u).extractLsb' 0 5 = BitVec.ofNat 5 u :=
  BitVec.eq_of_toNat_eq (by simp)

/-! #### The pseudo-commands of rule R48 -/

/-- A line with a register number takes 1 and 2 and is ill-formed with any other; `ok` is what else the line asks. -/
theorem expand_register (n : Nat) (ok : Bool) (i1 i2 : Instr) :
    (if (registerOk n && ok) = true then some [if n = 1 then i1 else i2] else none) =
      if n = 1 then (if ok = true then some [i1] else none)
      else if n = 2 then (if ok = true then some [i2] else none) else none := by
  by_cases h1 : n = 1
  · simp [registerOk, h1]
  by_cases h2 : n = 2
  · simp [registerOk, h2]
  · simp [registerOk, h1, h2]

theorem expandLine_ldk (n : Nat) (bytes : List Byte) : expandLine (.ldk n bytes) =
    if n = 1 then expandLine (.key .ldk1 bytes) else if n = 2 then expandLine (.key .ldk2 bytes) else none :=
  expand_register n (keyBufferOk bytes) (.ldk1 (keyopOfBytes bytes)) (.ldk2 (keyopOfBytes bytes))

theorem expandLine_shk (n : Nat) :
    expandLine (.shk n) = if n = 1 then some [.shk1] else if n = 2 then some [.shk2] else none := by
  have h := expand_register n true .shk1 .shk2
  rw [Bool.and_true] at h
  exact h

theorem expandLine_kb (n : Nat) :
    expandLine (.kb n) = if n = 1 then some [.kb1] else if n = 2 then some [.kb2] else none := by
  have h := expand_register n true .kb1 .kb2
  rw [Bool.and_true] at h
  exact h

theorem expandLine_keys (bytes1 bytes2 : List Byte) : expandLine (.keys bytes1 bytes2) =
    if bytes1.length = 15 ∧ bytes2.length = 15 then some [.ldk1 (keyopOfBytes bytes1), .ldk2 (keyopOfBytes bytes2)]
    else none :=
  if_congr (Bool.and_eq_true_iff.trans (and_congr (keyBufferOk_iff bytes1) (keyBufferOk_iff bytes2))) rfl rfl

/-- A list of units is well formed when it holds a unit and every one is below 32 (rules R47 and R48, assumption 10). -/
theorem units_ok_iff (us : List Nat) : (!us.isEmpty && us.all unitOk) = true ↔ us ≠ [] ∧ ∀ u ∈ us, u < 32 := by
  simp [unitOk_iff]

theorem expandLine_encs (us : List Nat) : expandLine (.encs us) =
    if us ≠ [] ∧ ∀ u ∈ us, u < 32 then some (us.map fun u => .enc (BitVec.ofNat 5 u)) else none :=
  if_congr (units_ok_iff us) rfl rfl

theorem expandLine_decs (us : List Nat) : expandLine (.decs us) =
    if us ≠ [] ∧ ∀ u ∈ us, u < 32 then some (us.map fun u => .dec (BitVec.ofNat 5 u)) else none :=
  if_congr (units_ok_iff us) rfl rfl

/-- Settles O51: the rows of each format expand as that format does, the other lines one by one. -/
theorem assembledLinesDecodeToTheirCommands : Obligations.AssembledLinesDecodeToTheirCommands := by
  refine ⟨fun l => ⟨assembleLine_eq_none_iff l, expandLine_eq_none_iff l⟩, fun l ws => decode_assembleLine, ?_, ?_, ?_,
    fun bytes i hi hl => keyopOfBytes_byte hl hi, expandLine_ldk, expandLine_shk, expandLine_kb, expandLine_keys,
    fun us => ⟨expandLine_encs us, expandLine_decs us⟩, rfl⟩
  · intro row hrow
    have hrow : row ∈ (Mnemonic.all.filter fun m => m.format == .n).map fun m => (m, m.build 0#120) := hrow
    obtain ⟨m, hm, rfl⟩ := List.mem_map.1 hrow
    exact expandLine_of_format_n (beq_iff_eq.1 (List.mem_filter.1 hm).2)
  · intro row hrow
    rcases List.mem_pair.1 hrow with rfl | rfl <;> exact expandLine_of_format_k rfl
  · intro row hrow
    simp only [← unit_ofNat]
    rcases List.mem_pair.1 hrow with rfl | rfl <;> exact expandLine_of_format_c rfl

end Sys2Proof.Machine
end

section
/-!
The statements of 44_controller.md: which modes accept a command (rules R87 and R100), the next-state function (rule R86), and the
four commands of the controller, RST, START, STOP and ABT (rules R88 to R93).
-/

namespace Sys2Proof.Machine

/-! ### The mode check -/

/-- A command is refused with `0x8000` and its full frame outside the modes of its row (rules R87 and R100). -/
theorem refusedElsewhere_legalIn (i : Instr) : refusedElsewhere i (legalIn i.mnemonic) :=
  fun s hs => ⟨_, exec_refused hs, refuse_frame .badMode s, by simp [answered]⟩

/-- Settles O9: the accepted command has the one `ST_OK` response of `effect_responses`. -/
theorem acceptedExactlyInItsModes : Obligations.AcceptedExactlyInItsModes := by
  refine ⟨fun i s hm => ?_, refusedElsewhere_legalIn⟩
  obtain ⟨dout, -, hr⟩ := effect_responses i s
  exact ⟨_, _, exec_accepted hm, hr, respWord_status .ok dout⟩

/-! ### Restore and validate -/

/-- RESTORE writes S1, S2, U and WARM alone (rule R88). -/
theorem restore_frame (s : State) : unchangedExcept [.s1, .s2, .u, .warm] s (restore s) := by
  simp [unchangedExcept_iff]

/-- Validation with a key not loaded, whatever the parities (rules R90 and R102). -/
theorem validateKeys_of_missing {s : State} (hl : ¬ (s.ld1 = true ∧ s.ld2 = true)) :
    validateKeys s = respond .ok (boolData false) (abortEntry .keyMissing s) := by
  simpa only [hl, not_false_eq_true, true_and, false_and, or_false] using validateKeys_cases s

/-- Validation with both keys loaded and a register of even parity (rule R90). -/
theorem validateKeys_of_even {s : State} (hl : s.ld1 = true ∧ s.ld2 = true)
    (hp : ¬ (oddOnes s.s1 = true ∧ oddOnes s.s2 = true)) :
    validateKeys s = respond .ok (boolData false) (abortEntry .keyParity s) := by
  simpa only [hl, hp, and_self, not_true_eq_false, not_false_eq_true, true_and, false_and, or_false, false_or]
    using validateKeys_cases s

/-- Validation with both keys loaded and both registers of odd parity (rule R90). -/
theorem validateKeys_of_odd {s : State} (hl : s.ld1 = true ∧ s.ld2 = true)
    (hp : oddOnes s.s1 = true ∧ oddOnes s.s2 = true) :
    validateKeys s = respond .ok (boolData true) { s with mode := .keysValidated } := by
  simpa only [hl, hp, and_self, not_true_eq_false, true_and, false_and, false_or] using validateKeys_cases s

/-- START leads to `KEYS_VALIDATED` or to `ABORTED` by the loaded flags and the snapshots (rules R86 and R90). -/
theorem effect_start_mode (s : State) :
    (effect .start s).mode = if keysGood s then .keysValidated else .aborted := by
  change (validateKeys (restore s)).mode = _
  rcases validateKeys_cases (restore s) with ⟨hl, h⟩ | ⟨hl, hp, h⟩ | ⟨⟨hl1, hl2⟩, ⟨hp1, hp2⟩, h⟩
  · rw [h, if_neg fun ⟨hl1, hl2, _⟩ => hl ⟨hl1, hl2⟩]; rfl
  · rw [h, if_neg fun ⟨_, _, hp1, hp2⟩ => hp ⟨hp1, hp2⟩]; rfl
  · rw [h, if_pos ⟨hl1, hl2, hp1, hp2⟩]; rfl

/-! ### The next-state function -/

/-- The end of a derivation moves `KEYS_VALIDATED` to `RUNNING`, as the rows of DRV, ENC and DEC say (rules R86 and R91). -/
theorem modeAfter_finishCharacter (s : State) (dout : KVal) : modeAfter .drv s (finishCharacter dout (derive s).2).mode := by
  rw [(finishCharacter_done s dout).mode]
  by_cases hk : s.mode = .keysValidated
  · exact (if_pos hk).mpr (if_pos hk)
  · exact (if_neg hk).mpr (if_neg hk)

/-- A refused derivation is in a mode that the rows of DRV, ENC and DEC leave (rules R86 and R87). -/
theorem modeAfter_drv_refused {s : State} (hm : s.mode ∉ legalIn .drv) : modeAfter .drv s s.mode :=
  (if_neg fun hk => hm (List.mem_pair.2 (.inl hk))).mpr rfl

/-- An accepted command leads to the cell of its row (rule R86). -/
theorem modeAfter_effect {i : Instr} {s : State} (hm : s.mode ∈ legalIn i.mnemonic) :
    modeAfter i.mnemonic s (effect i s).mode := by
  cases i with
  | start =>
    have hq := effect_start_mode s
    exact (if_pos (List.mem_singleton.1 hm)).mpr ⟨fun h => hq.trans (if_pos h), fun h => hq.trans (if_neg h)⟩
  | stop => exact (if_pos (List.mem_pair.1 hm)).mpr rfl
  | abt => exact (if_pos (List.mem_pair.1 hm)).mpr rfl
  | drv => exact modeAfter_finishCharacter s _
  | enc ch => exact modeAfter_finishCharacter s _
  | dec ch => exact modeAfter_finishCharacter s _
  | _ => rfl

/-- A refused command leaves the mode, as the refused cells of the table do (rules R86 and R100). -/
theorem modeAfter_refused {i : Instr} {s : State} (hm : s.mode ∉ legalIn i.mnemonic) :
    modeAfter i.mnemonic s s.mode := by
  cases i with
  | rst => exact absurd (by cases s.mode <;> decide) hm
  | start => exact (if_neg fun h => hm (List.mem_singleton.2 h)).mpr rfl
  | stop => exact (if_neg fun h => hm (List.mem_pair.2 h)).mpr rfl
  | abt => exact (if_neg fun h => hm (List.mem_pair.2 h)).mpr rfl
  | drv => exact modeAfter_drv_refused hm
  | enc ch => exact modeAfter_drv_refused hm
  | dec ch => exact modeAfter_drv_refused hm
  | _ => rfl

/-- Settles O10: by `modeAfter_effect` where the command is accepted, by `modeAfter_refused` elsewhere. -/
theorem nextModeFollowsTheTable : Obligations.NextModeFollowsTheTable := by
  intro i s
  by_cases hm : s.mode ∈ legalIn i.mnemonic
  · obtain ⟨dout, -, hr⟩ := effect_responses i s
    exact ⟨_, _, exec_accepted hm, modeAfter_effect hm, hr, by rw [respWord_status, if_pos hm]; rfl⟩
  · exact ⟨_, _, exec_refused hm, modeAfter_refused hm, rfl, by rw [respWord_status, if_neg hm]; rfl⟩

/-! ### RST -/

theorem exec_rst (s : State) : exec .rst s = .next (respond .ok 0#13 (machineReset s)) := rfl

/-- Settles O36: RST is `machineReset` and the answer 0, in every mode. -/
theorem machineResetRestoresAndGoesIdle : Obligations.MachineResetRestoresAndGoesIdle :=
  ⟨rfl, fun s => ⟨_, exec_rst s, rfl, rfl, rfl, rfl, rfl, rfl, by simp [answered], by simp [unchangedExcept_iff]⟩⟩

/-! ### START -/

/-- START in `IDLE` restores, then validates (rule R90). -/
theorem exec_start {s : State} (hm : s.mode = .idle) : exec .start s = .next (validateKeys (restore s)) :=
  exec_accepted (i := .start) (List.mem_singleton.2 hm)

/-- START writes what RESTORE writes, MODE, ERR and the response (rules R28 and R90). -/
theorem start_frame (s : State) :
    unchangedExcept [.s1, .s2, .u, .warm, .mode, .err, .responses] s (validateKeys (restore s)) :=
  unchangedExcept_trans (unchangedExcept_mono (restore_frame s) (by decide))
    (unchangedExcept_mono (validateKeys_frame (restore s)) (by decide))

/-- Settles O37: the frame of the validation keeps what RESTORE wrote, and each clause is one case of the validation. -/
theorem startValidatesOrAborts : Obligations.StartValidatesOrAborts := by
  refine ⟨rfl, refusedElsewhere_legalIn .start, fun s hm => ?_⟩
  have hkept := validateKeys_frame (restore s)
  refine ⟨_, exec_start hm, hkept .s1 (by decide), hkept .s2 (by decide), hkept .u (by decide), hkept .warm (by decide),
    start_frame s, fun hmissing => ?_, fun hl hp => ?_, fun hl hp => ?_⟩
  · have hl : ¬ ((restore s).ld1 = true ∧ (restore s).ld2 = true) := by rcases hmissing with h | h <;> simp [h]
    rw [validateKeys_of_missing hl]
    exact ⟨rfl, rfl, by simp [answered, respWord_bool]⟩
  · rw [validateKeys_of_even (s := restore s) hl hp]
    exact ⟨rfl, rfl, by simp [answered, respWord_bool]⟩
  · rw [validateKeys_of_odd (s := restore s) hl hp]
    exact ⟨rfl, rfl, by simp [answered, respWord_bool]⟩

/-! ### STOP and ABT -/

/-- Settles O38: STOP sets MODE and answers 0 in the two modes of a run. -/
theorem stopFinishesTheRun : Obligations.StopFinishesTheRun := by
  refine ⟨rfl, refusedElsewhere_legalIn .stop, fun s hm => ?_⟩
  exact ⟨_, exec_accepted (i := .stop) (List.mem_pair.2 hm), rfl, by simp [answered, effect],
    by simp [unchangedExcept_iff, effect]⟩

/-- Settles O39: ABT is the abort entry with `ERR_SYNC` and the answer 0, in the two modes before a run. -/
theorem abortBeforeTheRunReportsSync : Obligations.AbortBeforeTheRunReportsSync := by
  refine ⟨rfl, refusedElsewhere_legalIn .abt, fun s hm => ?_⟩
  exact ⟨_, exec_accepted (i := .abt) (List.mem_pair.2 hm), rfl, rfl, by simp [answered, effect],
    by simp [unchangedExcept_iff, effect]⟩

/-! ### RST, then START -/

/-- In `IDLE` with no error a machine reset is RESTORE and nothing more (rules R88 and R89). -/
theorem machineReset_eq_restore {s : State} (hm : s.mode = .idle) (he : s.err = .none) : machineReset s = restore s := by
  rw [machineReset, ← hm, ← he]
  rfl

theorem restore_restore (s : State) : restore (restore s) = restore s := rfl

theorem restore_respond (st : RespStatus) (dout : KVal) (s : State) :
    restore (respond st dout s) = respond st dout (restore s) := rfl

/-- The validation reads no response: a response given before it is still there after it, and nothing else differs. -/
theorem validateKeys_respond_frame (st : RespStatus) (dout : KVal) (s : State) :
    unchangedExcept [.responses] (validateKeys s) (validateKeys (respond st dout s)) := by
  by_cases hl : s.ld1 = true ∧ s.ld2 = true
  · by_cases hp : oddOnes s.s1 = true ∧ oddOnes s.s2 = true
    · rw [validateKeys_of_odd hl hp, validateKeys_of_odd (s := respond st dout s) hl hp]
      simp [unchangedExcept_iff]
    · rw [validateKeys_of_even hl hp, validateKeys_of_even (s := respond st dout s) hl hp]
      simp [unchangedExcept_iff]
  · rw [validateKeys_of_missing hl, validateKeys_of_missing (s := respond st dout s) hl]
    simp [unchangedExcept_iff]

/-- Settles O40: the second RESTORE finds the registers restored, and the validation does not see the response of RST. -/
theorem resetThenStartIsStart : Obligations.ResetThenStartIsStart := by
  intro s hm he
  refine ⟨_, _, _, exec_rst s, exec_start rfl, exec_start hm, ?_⟩
  rw [restore_respond, machineReset_eq_restore hm he, restore_restore]
  exact validateKeys_respond_frame .ok 0#13 (restore s)

end Sys2Proof.Machine
end

section
/-!
The statements of 60_exceptions.md: where an error can arise (rule R101), and the way out of the terminal modes (rule R104).
-/

namespace Sys2Proof.Machine

/-! ### Steps that take no RST -/

/-- A step that takes no RST moves the two ports alone, or runs a command other than RST on the state behind the word. -/
theorem step_noReset_cases {s t : State} (hn : noReset s) (h : step s = .next t) :
    unchangedExcept [.port, .responses] s t ∨ ∃ i, i ≠ .rst ∧ exec i (takeWord s) = .next t := by
  obtain ⟨-, rfl⟩ | ⟨w, rest, e, -, -, rfl⟩ | ⟨w, rest, i, hp, hd, he⟩ := step_cases h
  · exact .inl (unchangedExcept_refl _ t)
  · exact .inl (refuseIllegal_takeWord_frame s)
  · have hw : w ∈ s.port := hp ▸ List.mem_cons_self
    exact .inr ⟨i, fun hi => hn w hw (hi ▸ hd), he⟩

/-- Taking a word moves the command port alone (rule R36). -/
theorem takeWord_frame (s : State) : unchangedExcept [.port] s (takeWord s) := by
  simp [unchangedExcept_iff]

/-! ### Where an error arises -/

/-- RST, START and ABT are the only commands that write ERR (rules R28 and R96). -/
theorem effect_err {i : Instr} (hi : i ∉ [Instr.rst, .start, .abt]) (s : State) : (effect i s).err = s.err := by
  cases i with
  | rst => exact absurd (by decide) hi
  | start => exact absurd (by decide) hi
  | abt => exact absurd (by decide) hi
  | drv => exact (finishCharacter_done s _).err
  | enc ch => exact (finishCharacter_done s _).err
  | dec ch => exact (finishCharacter_done s _).err
  | _ => rfl

/-- The commands that turn ERR from 0 to an error, with the modes in which they do (rule R101). -/
theorem exec_raises_err {i : Instr} {s t : State} (h : exec i s = .next t) (hs : s.err = .none) (ht : t.err ≠ .none) :
    (i = .start ∧ s.mode = .idle) ∨ (i = .abt ∧ (s.mode = .idle ∨ s.mode = .keysValidated)) := by
  obtain ⟨hm, rfl⟩ | ⟨-, rfl⟩ := exec_cases h
  · by_cases hi : i ∈ [Instr.rst, .start, .abt]
    · simp only [List.mem_cons, List.not_mem_nil, or_false] at hi
      obtain rfl | rfl | rfl := hi
      · exact absurd rfl ht
      · exact .inl ⟨rfl, List.mem_singleton.1 hm⟩
      · exact .inr ⟨rfl, List.mem_pair.1 hm⟩
    · exact absurd ((effect_err hi s).trans hs) ht
  · exact absurd hs ht

/-- Any command that answers leads to the cell of its row, accepted or refused (rule R86). -/
theorem modeAfter_of_exec {i : Instr} {s t : State} (h : exec i s = .next t) : modeAfter i.mnemonic s t.mode := by
  obtain ⟨hm, rfl⟩ | ⟨hm, rfl⟩ := exec_cases h
  · exact modeAfter_effect hm
  · exact modeAfter_refused hm

/-- The rows of the next-state table lead from `RUNNING` and `FINISHED` to these two modes, all but the row of RST (rule R86). -/
theorem modeAfter_running_or_finished {i : Instr} {s : State} {q : Mode} (hi : i ≠ .rst)
    (hs : s.mode = .running ∨ s.mode = .finished) (h : modeAfter i.mnemonic s q) : q = .running ∨ q = .finished := by
  have hkeep : q = s.mode → q = .running ∨ q = .finished := fun hq => hq ▸ hs
  have hidle : s.mode ≠ .idle := by obtain hs | hs := hs <;> simp [hs]
  have hvalid : s.mode ≠ .keysValidated := by obtain hs | hs := hs <;> simp [hs]
  have hbefore : ¬ (s.mode = .idle ∨ s.mode = .keysValidated) := not_or.2 ⟨hidle, hvalid⟩
  cases i with
  | rst => exact absurd rfl hi
  | start => exact hkeep ((if_neg hidle).mp h)
  | stop =>
    by_cases hrun : s.mode = .keysValidated ∨ s.mode = .running
    · exact .inr ((if_pos hrun).mp h)
    · exact hkeep ((if_neg hrun).mp h)
  | abt => exact hkeep ((if_neg hbefore).mp h)
  | drv => exact hkeep ((if_neg hvalid).mp h)
  | enc ch => exact hkeep ((if_neg hvalid).mp h)
  | dec ch => exact hkeep ((if_neg hvalid).mp h)
  | _ => exact hkeep h

/-- What holds from `RUNNING` on while no RST is given: no error, and the run goes on or has ended normally (rule R101). -/
def errorFree (s : State) : Prop := s.err = .none ∧ (s.mode = .running ∨ s.mode = .finished)

/-- A command other than RST raises no error in `RUNNING` or `FINISHED` and leaves the engine in one of them (rule R101). -/
theorem exec_keeps_errorFree {i : Instr} {s t : State} (hi : i ≠ .rst) (h : exec i s = .next t) (hs : errorFree s) :
    errorFree t := by
  obtain ⟨herr, hmode⟩ := hs
  refine ⟨?_, modeAfter_running_or_finished hi hmode (modeAfter_of_exec h)⟩
  by_contra ht
  obtain ⟨-, hm⟩ | ⟨-, hm | hm⟩ := exec_raises_err h herr ht <;> simp [hm] at hmode

/-- `errorFree` reads neither port. -/
theorem errorFree_of_frame {s t : State} (hf : unchangedExcept [.port, .responses] s t) (hs : errorFree s) :
    errorFree t := by
  have herr : t.err = s.err := hf .err (by decide)
  have hmode : t.mode = s.mode := hf .mode (by decide)
  rwa [errorFree, herr, hmode]

/-- A step that takes no RST keeps `errorFree`. -/
theorem step_keeps_errorFree (s t : State) (hn : noReset s) (hs : errorFree s) (h : step s = .next t) : errorFree t := by
  obtain hf | ⟨i, hi, he⟩ := step_noReset_cases hn h
  · exact errorFree_of_frame hf hs
  · exact exec_keeps_errorFree hi he hs

/-- Settles O41: a run keeps `errorFree`, which holds at its start; `exec_raises_err` is the second clause. -/
theorem noErrorOnceRunning : Obligations.NoErrorOnceRunning := by
  refine ⟨fun n s hm he hn => ?_, fun i s t => exec_raises_err⟩
  exact run_noReset step_keeps_errorFree n s hn ⟨he, .inl hm⟩

/-! ### The terminal modes -/

/-- In `ABORTED` and `FINISHED` a command other than RST is refused, or is one of the reads: it answers and does nothing else
(rules R87 and R104). -/
theorem exec_terminal_frame {i : Instr} {s t : State} (hi : i ≠ .rst) (hm : s.mode = .aborted ∨ s.mode = .finished)
    (h : exec i s = .next t) : unchangedExcept [.responses] s t := by
  obtain ⟨ha, rfl⟩ | ⟨-, rfl⟩ := exec_cases h
  · cases i with
    | rst => exact absurd rfl hi
    | chk => exact respond_frame _ _ s
    | kb1 => exact respond_frame _ _ s
    | kb2 => exact respond_frame _ _ s
    | _ => obtain hm | hm := hm <;> simp [hm, legalIn, Instr.mnemonic] at ha
  · exact refuse_frame .badMode s

/-- In `ABORTED` and `FINISHED` a step that takes no RST moves the two ports alone (rule R104). -/
theorem step_terminal_frame {s t : State} (hn : noReset s) (hm : s.mode = .aborted ∨ s.mode = .finished)
    (h : step s = .next t) : unchangedExcept [.port, .responses] s t := by
  obtain hf | ⟨i, hi, he⟩ := step_noReset_cases hn h
  · exact hf
  · exact unchangedExcept_trans (unchangedExcept_mono (takeWord_frame s) (by decide))
      (unchangedExcept_mono (exec_terminal_frame (s := takeWord s) hi hm he) (by decide))

/-- Settles O42: the frame of a run is carried through it, and with it the terminal mode that makes the next step keep it. -/
theorem terminalStatesHoldUntilReset : Obligations.TerminalStatesHoldUntilReset := by
  refine ⟨fun n s hm hn => ?_, fun s _ => ⟨_, exec_rst s, rfl, rfl⟩⟩
  refine run_noReset (fun a b hna hsa hstep => ?_) n s hn (unchangedExcept_refl _ s)
  have hmode : a.mode = s.mode := hsa .mode (by decide)
  exact unchangedExcept_trans hsa (step_terminal_frame hna (hmode ▸ hm) hstep)

end Sys2Proof.Machine
end
